-- ==== Sys2Proof/Word.lean ====
section
/-! DEFINITION. The word types of the HXCC bus encoder core: a byte of the frame buffer and a word of the
register port. All values are unsigned (spec/00_scope.md R7). -/

namespace Sys2Proof

/-- A byte of the frame buffer (10_state.md R13). -/
abbrev Byte := BitVec 8

/-- A register-port word or a command word (20_memory.md R31, 30_encoding.md R46). -/
abbrev Word := BitVec 32

/-- The frame buffer: `FRAME_BYTES` = 15 bytes (10_state.md R13, 00_scope.md R6). -/
abbrev Frame := Vector Byte 15

/-- The width of UCNT, 19 bits (10_state.md R18): a number of ticks, at most 2^19 - 1. -/
abbrev Ticks := BitVec 19

end Sys2Proof
end

