-- ==== Sys2Proof/Config.lean ====
section
/-! DEFINITION. The build parameters of the block: fixed for the life of an instance (10_state.md R29) and listed in
00_scope.md R6. Every meaning takes them from the state's read-only field `cfg`, so that a claim about every state
is a claim about every choice of them. Their default values are in Machine/Params.lean. -/

namespace Sys2Proof

/-- FIELD_ORDER, the order of the value's bits inside a bit-field (20_memory.md R40, 40_frame_builder.md R62). -/
inductive FieldOrder where
  /-- Value bit j goes to offset pos + j. -/
  | lsbAtPos
  /-- Value bit width-1-j goes to offset pos + j. -/
  | msbAtPos
deriving DecidableEq, Repr

/-- The two frame templates LDTPL can load (30_encoding.md R50). -/
inductive Template where
  /-- TPL = 0, the zone template. -/
  | zone
  /-- TPL = 1, the program template. -/
  | program
deriving DecidableEq, Repr

/-- The parameters of 00_scope.md R6. TOLERANCE_US is not among them: R6 says it is not modelled. -/
structure Config where
  /-- ZONE_TEMPLATE, 15 bytes (40_frame_builder.md R63). -/
  zoneTemplate : Frame
  /-- PROG_TEMPLATE, 7 bytes (40_frame_builder.md R63). -/
  progTemplate : Vector Byte 7
  /-- FIELD_ORDER (40_frame_builder.md R62). -/
  fieldOrder : FieldOrder
  /-- T_RESET_H, in ticks. -/
  tResetH : Ticks
  /-- T_RESET_L, in ticks. -/
  tResetL : Ticks
  /-- T_START_H, in ticks. -/
  tStartH : Ticks
  /-- T_START_L, in ticks. -/
  tStartL : Ticks
  /-- T_SHORT, in ticks. -/
  tShort : Ticks
  /-- T_LONG, in ticks. -/
  tLong : Ticks
  /-- CLK_HZ, the frequency of `clk`. -/
  clkHz : Nat
deriving DecidableEq, Repr

/-- DESIGN CHOICE (log 8), safe. CLK_HZ is OPEN (00_scope.md R6): any positive multiple of 1 000 000. The block the
model resets to runs at `1000000 * (clkMHzPred + 1)` Hz for an uninterpreted `clkMHzPred`, so nothing can be
proved that rests on one clock frequency. -/
opaque Config.clkMHzPred : Nat

end Sys2Proof
end

