-- ==== Sys2Proof/Syntax.lean ====
section
/-! DEFINITION. The commands: one constructor for each row of spec/opcode_table.json (30_encoding.md R47). Numeric
operands are unsigned integers of no fixed width (00_scope.md R7, 30_encoding.md R55); WellFormed.lean says which of
them fit their fields. -/

namespace Sys2Proof

inductive Instr where
  /-- NOP (43_control.md R90). -/
  | nop
  /-- WRFIELD POS, WIDTH, VALUE (40_frame_builder.md R64). -/
  | wrfield (pos width value : Nat)
  /-- LDTPL TPL (40_frame_builder.md R65). -/
  | ldtpl (tpl : Template)
  /-- CLEAR LEN (40_frame_builder.md R66). -/
  | clear (len : Nat)
  /-- XMIT T (41_transmitter.md R71). -/
  | xmit (trail : Bool)
  /-- ZONE ZONE, MIN (42_command_encoders.md R83). -/
  | zone (zone minutes : Nat)
  /-- PROG PROG (42_command_encoders.md R89). -/
  | prog (program : Nat)
deriving DecidableEq, Repr

end Sys2Proof
end

