-- ==== Sys2Proof/WellFormed.lean ====
section
/-! DEFINITION. Which commands have an encoding: each numeric operand fits its field (30_encoding.md R49-R54; the
limits R60 gives the assembler). A well-formed command may still be out of the operation's legal range; the block
then rejects it with IPE (R58). -/

namespace Sys2Proof

/-- Every operand fits the field its format gives it (30_encoding.md R60). -/
def Instr.wellFormed : Instr → Bool
  | .nop => true
  | .wrfield pos width value => decide (pos < 128) && decide (width < 8) && decide (value < 256)
  | .ldtpl _ => true
  | .clear len => decide (len < 16)
  | .xmit _ => true
  | .zone z m => decide (z < 256) && decide (m < 256)
  | .prog p => decide (p < 256)

end Sys2Proof
end

