-- ==== Sys2Proof/Decode.lean ====
section
/-! DEFINITION. The command word: bit fields (00_scope.md R8), the total decoder of 30_encoding.md R59, and the
encoder, written from the formats R48-R54. -/

namespace Sys2Proof

/-- `w[hi:lo]`: the unsigned value of bits hi down to lo (00_scope.md R8). -/
def field (w : Word) (hi lo : Nat) : Nat :=
  w.toNat / 2 ^ lo % 2 ^ (hi + 1 - lo)

/-- Why a word is ILLEGAL; either way the command is rejected with ILC. -/
inductive DecodeError where
  /-- OP is in 0x7..0xF (30_encoding.md R56). -/
  | reservedOpcode (op : Nat)
  /-- OP is in 0x0..0x6 and a reserved-zero bit is set (30_encoding.md R57). -/
  | reservedBitSet (op : Nat)
deriving DecidableEq, Repr

/-- The command of a word, if the format's reserved-zero fields are all zero (30_encoding.md R57). -/
def orReserved (op : Nat) (reservedZero : Bool) (i : Instr) : Except DecodeError Instr :=
  if reservedZero then .ok i else .error (.reservedBitSet op)

/-- The template a TPL bit names (30_encoding.md R50). -/
def templateOfBit (b : Nat) : Template :=
  if b = 0 then .zone else .program

/-- The TPL bit of a template (30_encoding.md R50). -/
def Template.bit : Template → Nat
  | .zone => 0
  | .program => 1

/-- `Decode(w)`, total on every 32-bit word (30_encoding.md R59). -/
def decode (w : Word) : Except DecodeError Instr :=
  match field w 31 28 with
  | 0 => orReserved 0 (field w 27 0 == 0) .nop
  | 1 => orReserved 1 (field w 27 23 == 0 && field w 15 11 == 0)
      (.wrfield (field w 22 16) (field w 10 8) (field w 7 0))
  | 2 => orReserved 2 (field w 27 1 == 0) (.ldtpl (templateOfBit (field w 0 0)))
  | 3 => orReserved 3 (field w 27 4 == 0) (.clear (field w 3 0))
  | 4 => orReserved 4 (field w 27 1 == 0) (.xmit (field w 0 0 == 1))
  | 5 => orReserved 5 (field w 27 16 == 0) (.zone (field w 7 0) (field w 15 8))
  | 6 => orReserved 6 (field w 27 8 == 0) (.prog (field w 7 0))
  | op => .error (.reservedOpcode op)

/-- The OP field of each command (30_encoding.md R47). -/
def Instr.opcode : Instr → Nat
  | .nop => 0
  | .wrfield _ _ _ => 1
  | .ldtpl _ => 2
  | .clear _ => 3
  | .xmit _ => 4
  | .zone _ _ => 5
  | .prog _ => 6

/-- The operand fields of each command at their places (30_encoding.md R48-R54), as a number. -/
def Instr.operands : Instr → Nat
  | .nop => 0
  | .wrfield pos width value => pos * 2 ^ 16 + width * 2 ^ 8 + value
  | .ldtpl tpl => tpl.bit
  | .clear len => len
  | .xmit trail => trail.toNat
  | .zone z m => m * 2 ^ 8 + z
  | .prog p => p

/-- The command word of a well-formed command (30_encoding.md R46, R48-R54). -/
def encode (i : Instr) : Word :=
  BitVec.ofNat 32 (i.opcode * 2 ^ 28 + i.operands)

/-- The instruction the decoder reads from the low `nbits` bits of `w`, the bits above them zero. A command is one
32-bit word (30_encoding.md R46), its bit 0 the least significant. -/
def decodeTableWord (nbits w : Nat) : Option Instr :=
  (decode (BitVec.ofNat 32 (w % 2 ^ nbits))).toOption

end Sys2Proof
end

