-- ==== Sys2Proof/Machine/Params.lean ====
section
/-! DEFINITION. The values of the parameters (00_scope.md R6) and what follows from them: DIV, and which choices of
parameters are a block at all. -/

namespace Sys2Proof.Machine

/-- ZONE_TEMPLATE's default. PRESUMED (log 6), unsafe: from general knowledge, not in the source (40_frame_builder.md
R63, 93_implementation_defined.md G1). -/
def defaultZoneTemplate : Frame :=
  #v[0xFF, 0x00, 0x00, 0x00, 0x10, 0x00, 0x00, 0x04, 0x00, 0x00, 0x01, 0x00, 0x01, 0xB8, 0x3F]

/-- PROG_TEMPLATE's default. PRESUMED (log 6), unsafe: from general knowledge, not in the source (40_frame_builder.md
R63, 93_implementation_defined.md G2). -/
def defaultProgTemplate : Vector Byte 7 :=
  #v[0xFF, 0x40, 0x03, 0x96, 0x09, 0xBD, 0x7F]

/-- The parameters' defaults (00_scope.md R6). FIELD_ORDER's is PRESUMED (log 7), unsafe; the six durations are the
source's unaudited literals (UNVERIFIED, log 10), unsafe; CLK_HZ is open (log 8), safe. -/
def defaultConfig : Config where
  zoneTemplate := defaultZoneTemplate
  progTemplate := defaultProgTemplate
  fieldOrder := .lsbAtPos
  tResetH := 325000
  tResetL := 65000
  tStartH := 900
  tStartL := 208
  tShort := 208
  tLong := 1875
  clkHz := 1000000 * (Config.clkMHzPred + 1)

/-- DIV = CLK_HZ / 1000000, the clock cycles of one tick (00_scope.md R6, 60_exceptions.md R103). -/
def clkDiv (c : Config) : Nat :=
  c.clkHz / 1000000

/-- The frame a template starts a command from: the 15-byte zone template, or the 7-byte program template with bytes
7..14 zero (40_frame_builder.md R65). -/
def templateFrame (c : Config) : Template → Frame
  | .zone => c.zoneTemplate
  | .program => Vector.ofFn fun i => c.progTemplate[i.val]?.getD 0

/-- A template's length in bytes (40_frame_builder.md R63). -/
def templateLength : Template → Nat
  | .zone => 15
  | .program => 7

end Sys2Proof.Machine
end

