-- ==== Sys2Proof/Machine/State.lean ====
section
/-! DEFINITION. The block's state as plain data (10_state.md), the pins an event brings, the reasons a step can stop,
and the state after reset (70_reset_and_hazards.md R110). -/

namespace Sys2Proof.Machine

/-- PHASE, the sequencer's position in the wire protocol (10_state.md R16). The value 7 is never held (R16,
93_implementation_defined.md I10), so it has no constructor. -/
inductive Phase where
  /-- 0, at rest. -/
  | idle
  /-- 1, the reset (wake) sequence, HIGH part. -/
  | resetH
  /-- 2, the reset (wake) sequence, LOW part. -/
  | resetL
  /-- 3, the start sequence, HIGH part. -/
  | startH
  /-- 4, the start sequence, LOW part. -/
  | startL
  /-- 5, the HIGH part of pulse PIDX. -/
  | bitH
  /-- 6, the LOW part of pulse PIDX. -/
  | bitL
deriving DecidableEq, Repr

/-- The register port's input pins at one rising edge of `clk` (10_state.md R30). -/
structure PortPins where
  /-- `reg_sel`: an access is requested. -/
  sel : Bool
  /-- `reg_write`: 1 = write, 0 = read. -/
  write : Bool
  /-- `reg_addr`: byte address. -/
  addr : BitVec 7
  /-- `reg_be`: byte enables. -/
  be : BitVec 4
  /-- `reg_wdata`: write data. -/
  wdata : Word
deriving DecidableEq, Repr

/-- What the outside does to the block (10_state.md R30, 00_scope.md R5). One step of the model consumes one event
(log 1). -/
inductive Event where
  /-- The input `rst` takes this level; it may do so between any two clock edges (70_reset_and_hazards.md R108). -/
  | rst (level : Bool)
  /-- One rising edge of `clk`, with the register port's pins as they stand at it. -/
  | edge (pins : PortPins)
deriving DecidableEq, Repr

/-- The state of the block: every element of 10_state.md R13-R22, the pins it drives or holds (R30), and two fields
of the model's own, `events` and `cfg`. BUSY is not stored (R21). -/
@[ext]
structure State where
  /-- FRAME[0..14] (10_state.md R13). -/
  frame : Frame
  /-- FLEN (10_state.md R14). -/
  flen : BitVec 4
  /-- TRAIL (10_state.md R15). -/
  trail : Bool
  /-- PHASE (10_state.md R16). -/
  phase : Phase
  /-- PIDX (10_state.md R17). -/
  pidx : BitVec 8
  /-- UCNT (10_state.md R18). -/
  ucnt : Ticks
  /-- PRESC (10_state.md R19), hidden. -/
  presc : Nat
  /-- LINE, driven on `line_out` (10_state.md R20, R30). -/
  line : Bool
  /-- The sticky flag IPE (10_state.md R22). -/
  ipe : Bool
  /-- The sticky flag ILC (10_state.md R22). -/
  ilc : Bool
  /-- The sticky flag OVR (10_state.md R22). -/
  ovr : Bool
  /-- The level of the input `rst` (10_state.md R30). -/
  rst : Bool
  /-- `reg_rdata` after the last event: the data of its read, or `none` where it read nothing and the spec gives the
  pin no valid value (10_state.md R30; log 4). -/
  rdata : Option Word
  /-- `reg_err` after the last event (10_state.md R30, 20_memory.md R32). -/
  err : Bool
  /-- The model's own: what the host and the reset pin will do, oldest first (log 2). -/
  events : List Event
  /-- The model's own: the build parameters, which no step changes (10_state.md R29; log 9). -/
  cfg : Config
deriving DecidableEq, Repr

/-- The reasons the machine stops. None is an error of 60_exceptions.md R93: those set a flag or `reg_err`, and the
machine goes on. -/
inductive Fault where
  /-- Raised by the sequencer when it needs the bit of a pulse whose index is at or above NP, for which
  41_transmitter.md R69 gives no bit. No reachable state does (93_implementation_defined.md I11, treatment `stuck`).
  Safe: no rule produces such a state (log 11). -/
  | stuckPulseIndex
deriving DecidableEq, Repr

/-- The reasons a step is refused. -/
inductive Refusal where
  /-- Raised by `exec` for an instruction that has no meaning yet. Safe. No arm raises it now. -/
  | notModelled (mnemonic : String)
deriving DecidableEq, Repr

/-- The reset values of every element (70_reset_and_hazards.md R110), for a block built with parameters `c`. The
read data and the error response are 0 while `rst` is 1 (R108, R110); the model keeps them so until the first edge
(log 5). -/
def State.resetFor (c : Config) : State where
  frame := Vector.replicate 15 0
  flen := 15
  trail := false
  phase := .idle
  pidx := 0
  ucnt := 0
  presc := 0
  line := false
  ipe := false
  ilc := false
  ovr := false
  rst := false
  rdata := some 0
  err := false
  events := []
  cfg := c

/-- The block right after reset, built with the default parameters. -/
def State.reset : State :=
  State.resetFor defaultConfig

end Sys2Proof.Machine
end

