-- ==== Sys2Proof/Machine/Ops.lean ====
section
/-! DEFINITION. The named operations over the state: BUSY, the frame's bits, the block's error entry and its return,
the acceptance of a command, the start of a transmission, and reset. -/

namespace Sys2Proof.Machine

/-! ### The sequencer's position -/

/-- BUSY = (PHASE != IDLE) (10_state.md R21). -/
def State.busy (s : State) : Bool :=
  s.phase != .idle

/-- The PHASE code (10_state.md R16). -/
def Phase.code : Phase → Nat
  | .idle => 0
  | .resetH => 1
  | .resetL => 2
  | .startH => 3
  | .startL => 4
  | .bitH => 5
  | .bitL => 6

/-- The LINE column of 10_state.md R16. -/
def Phase.level : Phase → Bool
  | .resetH | .startH | .bitH => true
  | .idle | .resetL | .startL | .bitL => false

/-! ### Frame bits -/

/-- Byte `i` of the frame (00_scope.md R10); 0 past the buffer, which no rule reads. -/
def frameByte (f : Frame) (i : Nat) : Byte :=
  f[i]?.getD 0

/-- A byte with bit `k` set to `b`, the other seven bits unchanged. -/
def setByteBit (x : Byte) (k : Nat) (b : Bool) : Byte :=
  if b then x ||| (1#8 <<< k) else x &&& ~~~(1#8 <<< k)

/-- `FBIT(o)`: offset o names bit 7 - (o mod 8) of byte o div 8 (20_memory.md R37, 00_scope.md R9). -/
def fbit (f : Frame) (o : Nat) : Bool :=
  (frameByte f (o / 8)).getLsbD (7 - o % 8)

/-- `FBIT(o) <- b`: the other 7 bits of that byte unchanged (20_memory.md R37). -/
def setFbit (f : Frame) (o : Nat) (b : Bool) : Frame :=
  f.setIfInBounds (o / 8) (setByteBit (frameByte f (o / 8)) (7 - o % 8) b)

/-- The all-zero frame (10_state.md R13, 40_frame_builder.md R66). -/
def zeroFrame : Frame :=
  Vector.replicate 15 0

/-! ### Errors: taking one, and clearing the flags -/

/-- The errors the block reports (60_exceptions.md R93). -/
inductive ErrorCause where
  /-- InvalidParameter: an operand outside its legal range. -/
  | ipe
  /-- Illegal command. -/
  | ilc
  /-- Overrun: a command or frame write while busy. -/
  | ovr
  /-- A register access that is not a full aligned word. -/
  | busErr
deriving DecidableEq, Repr

/-- The spec's number for each cause; no register holds it (60_exceptions.md R93). -/
def ErrorCause.code : ErrorCause → Nat
  | .ipe => 1
  | .ilc => 2
  | .ovr => 3
  | .busErr => 4

/-- Taking an error: the named STATUS flag becomes 1, or `reg_err` for BUSERR, and nothing else changes; there is no
saved state, handler, vector or mode (60_exceptions.md R94, R96). -/
def raise (e : ErrorCause) (s : State) : State :=
  match e with
  | .ipe => { s with ipe := true }
  | .ilc => { s with ilc := true }
  | .ovr => { s with ovr := true }
  | .busErr => { s with err := true }

/-- Clearing flags, the analogue of a return (60_exceptions.md R97): a 1 in bit 16, 17 or 18 of the word written to
STATUS clears IPE, ILC or OVR; every other bit is ignored (20_memory.md R36). -/
def clearFlags (v : Word) (s : State) : State :=
  { s with
    ipe := s.ipe && !v.getLsbD 16
    ilc := s.ilc && !v.getLsbD 17
    ovr := s.ovr && !v.getLsbD 18 }

/-! ### Commands -/

/-- The outcome of a command or access of this block. -/
abbrev Result := Host.Outcome State Fault Refusal

/-- A result's next state, changed by `g`; a stop stays as it is. -/
def mapNext (g : State → State) : Result → Result
  | .next s => .next (g s)
  | .fault r => .fault r
  | .refused r => .refused r

/-- The first check of every command (43_control.md R91 step 1): while BUSY it is rejected with OVR and has no other
effect; else it goes on as `run`. -/
def whenIdle (s : State) (run : State → Result) : Result :=
  if s.busy then .next (raise .ovr s) else run s

/-- The operand check of a command (60_exceptions.md R93, R94): IPE and no other effect, or else `run`. -/
def checked (legal : Bool) (s : State) (run : State → Result) : Result :=
  if legal then run s else .next (raise .ipe s)

/-- A new frame and its length, written whole (40_frame_builder.md R65, R66). -/
def loadFrame (f : Frame) (len : Nat) (s : State) : State :=
  { s with frame := f, flen := BitVec.ofNat 4 len }

/-- `StartTx()` with the trailing-bit request its caller sets first (41_transmitter.md R72). -/
def startTx (trail : Bool) (s : State) : State :=
  { s with
    trail := trail
    phase := .resetH
    line := true
    ucnt := s.cfg.tResetH
    pidx := 0
    presc := 0 }

/-! ### Reset -/

/-- `rst` asserted: every element at its reset value at once, whatever was going on (70_reset_and_hazards.md R108,
R109). The parameters and the coming events are not the block's to reset. -/
def assertReset (s : State) : State :=
  { State.resetFor s.cfg with rst := true, events := s.events }

end Sys2Proof.Machine
end

