-- ==== Sys2Proof/Machine/Operands.lean ====
section
/-! DEFINITION. The operands: their legal ranges (00_scope.md R6), and the bit-field writer through which every value
reaches the frame, with its inverse (40_frame_builder.md R62, 42_command_encoders.md R86). The operand fields of the
word are read in Decode.lean (30_encoding.md R55). -/

namespace Sys2Proof.Machine

/-! ### Legal ranges -/

/-- WRFIELD's range: WIDTH is not 0 and POS + WIDTH <= 8*FLEN (40_frame_builder.md R64). -/
def fieldLegal (pos width : Nat) (flen : BitVec 4) : Bool :=
  width != 0 && decide (pos + width ≤ 8 * flen.toNat)

/-- CLEAR's range: LEN is not 0 (40_frame_builder.md R66). -/
def lenLegal (len : Nat) : Bool :=
  len != 0

/-- ZONE's range: 1 <= ZONE <= 48 and MIN <= 240 (42_command_encoders.md R81). -/
def zoneLegal (zone minutes : Nat) : Bool :=
  decide (1 ≤ zone) && decide (zone ≤ 48) && decide (minutes ≤ 240)

/-- PROG's range: 1 <= PROG <= 4 (42_command_encoders.md R88). -/
def progLegal (program : Nat) : Bool :=
  decide (1 ≤ program) && decide (program ≤ 4)

/-! ### The bit-field writer -/

/-- The bit of `value` that goes to offset pos + j of a field of `width` bits (40_frame_builder.md R62). -/
def valueBit (order : FieldOrder) (value width j : Nat) : Bool :=
  match order with
  | .lsbAtPos => value.testBit j
  | .msbAtPos => value.testBit (width - 1 - j)

/-- The loop of `WriteField` for j = 0 .. n-1. -/
def writeBits (order : FieldOrder) (pos value width : Nat) : Nat → Frame → Frame
  | 0, f => f
  | n + 1, f => setFbit (writeBits order pos value width n f) (pos + n) (valueBit order value width n)

/-- `WriteField(pos, value, width)` (40_frame_builder.md R62). -/
def writeField (order : FieldOrder) (pos value width : Nat) (f : Frame) : Frame :=
  writeBits order pos value width width f

/-- The loop of `readField`: the value of the bits at offsets pos .. pos+n-1, each in its value place. -/
def readBits (order : FieldOrder) (pos width : Nat) (f : Frame) : Nat → Nat
  | 0 => 0
  | n + 1 =>
    readBits order pos width f n +
      (fbit f (pos + n)).toNat * 2 ^ (match order with | .lsbAtPos => n | .msbAtPos => width - 1 - n)

/-- The inverse of `WriteField` under the same FIELD_ORDER (42_command_encoders.md R86). -/
def readField (order : FieldOrder) (pos width : Nat) (f : Frame) : Nat :=
  readBits order pos width f width

/-- One call of `WriteField`: offset, value and width. -/
structure FieldWrite where
  pos : Nat
  value : Nat
  width : Nat
deriving DecidableEq, Repr

/-- The calls of a list, in its order. -/
def writeFields (order : FieldOrder) (ws : List FieldWrite) (f : Frame) : Frame :=
  ws.foldl (fun g w => writeField order w.pos w.value w.width g) f

end Sys2Proof.Machine
end

