-- ==== Sys2Proof/Machine/CommandEncoders.lean ====
section
/-! DEFINITION. The two command encoders: ZONE and PROG (42_command_encoders.md). -/

namespace Sys2Proof.Machine

/-- The zone-group selector: 1 if ZONE > 12, else 2 (42_command_encoders.md R82 row 1). -/
def zoneGroup (zone : Nat) : Nat :=
  if zone > 12 then 1 else 2

/-- The 14 fields of a zone frame, in the order of 42_command_encoders.md R83. Values are exact; the writer keeps the
low bits (R84). -/
def zoneFields (zone minutes : Nat) : List FieldWrite :=
  [⟨9, zoneGroup zone, 2⟩,
   ⟨23, zone + 0x17, 7⟩, ⟨36, zone + 0x17, 7⟩,
   ⟨49, zone + 0x23, 7⟩, ⟨62, zone + 0x23, 7⟩,
   ⟨75, zone + 0x2F, 7⟩, ⟨88, zone + 0x2F, 7⟩,
   ⟨31, minutes, 4⟩, ⟨57, minutes, 4⟩, ⟨83, minutes, 4⟩,
   ⟨44, minutes >>> 4, 4⟩, ⟨70, minutes >>> 4, 4⟩, ⟨96, minutes >>> 4, 4⟩,
   ⟨109, zone - 1, 4⟩]

/-- The zone frame (42_command_encoders.md R82, R83). -/
def zoneFrame (c : Config) (zone minutes : Nat) : Frame :=
  writeFields c.fieldOrder (zoneFields zone minutes) (templateFrame c .zone)

/-- The one field of a program frame (42_command_encoders.md R89). -/
def progFields (program : Nat) : List FieldWrite :=
  [⟨31, program - 1, 2⟩]

/-- The program frame, its bytes 7..14 zero (42_command_encoders.md R89). -/
def progFrame (c : Config) (program : Nat) : Frame :=
  writeFields c.fieldOrder (progFields program) (templateFrame c .program)

/-- ZONE: run a zone for some minutes, 0 minutes stopping it (42_command_encoders.md R83, R87). -/
def execZone (zone minutes : Nat) (s : State) : Result :=
  whenIdle s fun s =>
    checked (zoneLegal zone minutes) s fun s =>
      .next (startTx true (loadFrame (zoneFrame s.cfg zone minutes) 15 s))

/-- PROG: run a program (42_command_encoders.md R89). -/
def execProg (program : Nat) (s : State) : Result :=
  whenIdle s fun s =>
    checked (progLegal program) s fun s =>
      .next (startTx false (loadFrame (progFrame s.cfg program) 7 s))

end Sys2Proof.Machine
end

