-- ==== Sys2Proof/Machine/Control.lean ====
section
/-! DEFINITION. NOP (43_control.md). -/

namespace Sys2Proof.Machine

/-- NOP: no state changes, but OVR while BUSY (43_control.md R90). -/
def execNop (s : State) : Result :=
  whenIdle s fun s => .next s

end Sys2Proof.Machine
end

