-- ==== Sys2Proof/Machine/FrameBuilder.lean ====
section
/-! DEFINITION. The frame builder's commands: WRFIELD, LDTPL, CLEAR (40_frame_builder.md). -/

namespace Sys2Proof.Machine

/-- WRFIELD: write one bit-field into the frame (40_frame_builder.md R64). -/
def execWrfield (pos width value : Nat) (s : State) : Result :=
  whenIdle s fun s =>
    checked (fieldLegal pos width s.flen) s fun s =>
      .next { s with frame := writeField s.cfg.fieldOrder pos value width s.frame }

/-- LDTPL: load a template into the frame (40_frame_builder.md R65). -/
def execLdtpl (tpl : Template) (s : State) : Result :=
  whenIdle s fun s => .next (loadFrame (templateFrame s.cfg tpl) (templateLength tpl) s)

/-- CLEAR: zero the frame and set its length (40_frame_builder.md R66). -/
def execClear (len : Nat) (s : State) : Result :=
  whenIdle s fun s => checked (lenLegal len) s fun s => .next (loadFrame zeroFrame len s)

end Sys2Proof.Machine
end

