-- ==== Sys2Proof/Machine/Transmitter.lean ====
section
/-! DEFINITION. The pulse encoder and the bus transmitter: the pulse sequence, the sequencer, and XMIT
(41_transmitter.md). -/

namespace Sys2Proof.Machine

/-! ### The pulse encoder and the pulse sequence -/

/-- `HighTime(b)` (41_transmitter.md R68). -/
def highTime (c : Config) (b : Bool) : Ticks :=
  if b then c.tLong else c.tShort

/-- `LowTime(b)` (41_transmitter.md R68). -/
def lowTime (c : Config) (b : Bool) : Ticks :=
  if b then c.tShort else c.tLong

/-- NP = 8*n + TRAIL + 1, the pulses of an n-byte frame (41_transmitter.md R69). -/
def pulseCount (n : Nat) (trail : Bool) : Nat :=
  8 * n + trail.toNat + 1

/-- `TxBit(k)`: the frame's bits, the optional trailing 1, the stop 0; no bit at or above NP
(41_transmitter.md R69). -/
def txBit (f : Frame) (n : Nat) (trail : Bool) (k : Nat) : Option Bool :=
  if k < 8 * n then some (fbit f k)
  else if k = 8 * n ∧ trail = true then some true
  else if k + 1 = pulseCount n trail then some false
  else none

/-- NP of the current frame (41_transmitter.md R69). -/
def State.np (s : State) : Nat :=
  pulseCount s.flen.toNat s.trail

/-- `TxBit(k)` of the current frame (41_transmitter.md R69). -/
def State.tx (s : State) (k : Nat) : Option Bool :=
  txBit s.frame s.flen.toNat s.trail k

/-! ### The sequencer -/

/-- The HIGH part of pulse `k` begins (41_transmitter.md R75). A pulse that has no bit stops the machine: no reachable
state asks for one (log 11, safe). -/
def beginPulse (k : Nat) (s : State) : Result :=
  match s.tx k with
  | some b =>
    .next { s with phase := .bitH, line := true, pidx := BitVec.ofNat 8 k, ucnt := highTime s.cfg b }
  | none => .fault .stuckPulseIndex

/-- The LOW part of pulse PIDX begins (41_transmitter.md R75). -/
def beginLow (s : State) : Result :=
  match s.tx s.pidx.toNat with
  | some b => .next { s with phase := .bitL, line := false, ucnt := lowTime s.cfg b }
  | none => .fault .stuckPulseIndex

/-- `Advance()`: from one waveform segment to the next (41_transmitter.md R75). It is called only with PHASE not
IDLE. -/
def advance (s : State) : Result :=
  match s.phase with
  | .idle => .next s
  | .resetH => .next { s with phase := .resetL, line := false, ucnt := s.cfg.tResetL }
  | .resetL => .next { s with phase := .startH, line := true, ucnt := s.cfg.tStartH }
  | .startH => .next { s with phase := .startL, line := false, ucnt := s.cfg.tStartL }
  | .startL => beginPulse 0 s
  | .bitH => beginLow s
  | .bitL =>
    if s.pidx.toNat + 1 = s.np then
      .next { s with phase := .idle, line := false, pidx := 0, ucnt := 0 }
    else beginPulse (s.pidx.toNat + 1) s

/-- `TickEnd()`: the end of a tick (41_transmitter.md R75). -/
def tickEnd (s : State) : Result :=
  if 1 < s.ucnt.toNat then .next { s with ucnt := s.ucnt - 1 } else advance s

/-- The sequencer's part of one rising edge of `clk` with `rst` = 0 (41_transmitter.md R73). -/
def sequencerEdge (s : State) : Result :=
  if s.busy then
    if s.presc + 1 = clkDiv s.cfg then tickEnd { s with presc := 0 }
    else .next { s with presc := s.presc + 1 }
  else .next s

/-! ### XMIT -/

/-- XMIT: transmit the current frame (41_transmitter.md R71). -/
def execXmit (trail : Bool) (s : State) : Result :=
  whenIdle s fun s => .next (startTx trail s)

end Sys2Proof.Machine
end

