-- ==== Sys2Proof/Machine/Dispatch.lean ====
section
/-! DEFINITION. exec: the meaning of each command, one arm per constructor of Instr (43_control.md R91). -/

namespace Sys2Proof.Machine

def exec (i : Instr) (s : State) : Host.Outcome State Fault Refusal :=
  match i with
  | .nop => Sys2Proof.Machine.execNop s
  | .wrfield pos width value => Sys2Proof.Machine.execWrfield pos width value s
  | .ldtpl tpl => Sys2Proof.Machine.execLdtpl tpl s
  | .clear len => Sys2Proof.Machine.execClear len s
  | .xmit trail => Sys2Proof.Machine.execXmit trail s
  | .zone zone minutes => Sys2Proof.Machine.execZone zone minutes s
  | .prog program => Sys2Proof.Machine.execProg program s

end Sys2Proof.Machine
end

