-- ==== Sys2Proof/Machine/Flags.lean ====
section
/-! DEFINITION. The words in which a host reads the flags and the sequencer's position: STATUS (10_state.md R24) and
PROGRESS (10_state.md R25). -/

namespace Sys2Proof.Machine

/-- The STATUS word (10_state.md R24): BUSY bit 0, LINE bit 1, PHASE bits 6:4, FLEN bits 11:8, TRAIL bit 12, IPE bit
16, ILC bit 17, OVR bit 18; every other bit reads 0. -/
def statusWord (s : State) : Word :=
  BitVec.ofNat 32
    (s.busy.toNat + s.line.toNat * 2 ^ 1 + s.phase.code * 2 ^ 4 + s.flen.toNat * 2 ^ 8 + s.trail.toNat * 2 ^ 12
      + s.ipe.toNat * 2 ^ 16 + s.ilc.toNat * 2 ^ 17 + s.ovr.toNat * 2 ^ 18)

/-- The PROGRESS word (10_state.md R25): PIDX in bits 7:0, UCNT in bits 26:8; every other bit reads 0. -/
def progressWord (s : State) : Word :=
  BitVec.ofNat 32 (s.pidx.toNat + s.ucnt.toNat * 2 ^ 8)

end Sys2Proof.Machine
end

