-- ==== Sys2Proof/Machine/Port.lean ====
section
/-! DEFINITION. The register port: the address map, reads, writes, and the issue of a command (20_memory.md,
43_control.md R91). -/

namespace Sys2Proof.Machine

/-! ### The address map -/

/-- What a word address names (20_memory.md R33). -/
inductive Register where
  | cmd
  | status
  | progress
  /-- FRAMEi, with i = 0..14. -/
  | frame (i : Nat)
  /-- No register (20_memory.md R34). -/
  | unmapped
deriving DecidableEq, Repr

/-- The register at a word-aligned byte address (20_memory.md R33). -/
def registerAt (addr : BitVec 7) : Register :=
  if addr.toNat = 0x00 then .cmd
  else if addr.toNat = 0x04 then .status
  else if addr.toNat = 0x08 then .progress
  else if 0x40 ≤ addr.toNat ∧ addr.toNat ≤ 0x78 then .frame ((addr.toNat - 0x40) / 4)
  else .unmapped

/-! ### Commands -/

/-- `IssueCommand(w)` (43_control.md R91): OVR while BUSY, the word then not decoded; ILC for an illegal word; else
the command itself. -/
def issueCommand (w : Word) (s : State) : Result :=
  if s.busy then .next (raise .ovr s)
  else
    match decode w with
    | .error _ => .next (raise .ilc s)
    | .ok i => exec i s

/-! ### Reads and writes -/

/-- `MemRead(addr, 4)` of a legal address; no read has a side effect (20_memory.md R34, R35). -/
def memRead (addr : BitVec 7) (s : State) : Word :=
  match registerAt addr with
  | .cmd => 0
  | .status => statusWord s
  | .progress => progressWord s
  | .frame i => (frameByte s.frame i).setWidth 32
  | .unmapped => 0

/-- A write to FRAMEi: the low byte of the word, or OVR while BUSY (20_memory.md R36). -/
def writeFrameByte (i : Nat) (v : Word) (s : State) : State :=
  if s.busy then raise .ovr s else { s with frame := s.frame.setIfInBounds i (v.setWidth 8) }

/-- `MemWrite(addr, 4, v)` to a legal address (20_memory.md R34, R36). -/
def memWrite (addr : BitVec 7) (v : Word) (s : State) : Result :=
  match registerAt addr with
  | .cmd => issueCommand v s
  | .status => .next (clearFlags v s)
  | .progress => .next s
  | .frame i => .next (writeFrameByte i v s)
  | .unmapped => .next s

/-- The port's answer to the present access: the data of a read, if it was one, and no error. -/
def respond (data : Option Word) (s : State) : State :=
  { s with rdata := data, err := false }

/-- A legal access is a full word at a word-aligned address (20_memory.md R32). -/
def accessLegal (p : PortPins) : Bool :=
  p.be == 0b1111#4 && p.addr.toNat % 4 == 0

/-- The register port's part of one rising edge of `clk` with `rst` = 0 (10_state.md R30, 20_memory.md R31-R36). -/
def portAccess (p : PortPins) (s : State) : Result :=
  if !p.sel then .next (respond none s)
  else if !accessLegal p then .next (raise .busErr (respond (if p.write then none else some 0) s))
  else if p.write then mapNext (respond none) (memWrite p.addr p.wdata s)
  else .next (respond (some (memRead p.addr s)) s)

/-- The pins of a full-word write of `v` to `addr`. -/
def writePins (addr : BitVec 7) (v : Word) : PortPins :=
  { sel := true, write := true, addr := addr, be := 0b1111#4, wdata := v }

/-- The pins of a full-word read of `addr`. -/
def readPins (addr : BitVec 7) : PortPins :=
  { sel := true, write := false, addr := addr, be := 0b1111#4, wdata := 0 }

/-- The pins of a cycle without an access. -/
def idlePins : PortPins :=
  { sel := false, write := false, addr := 0, be := 0, wdata := 0 }

end Sys2Proof.Machine
end

