-- ==== Sys2Proof/Machine/Clock.lean ====
section
/-! DEFINITION. One event: a rising edge of `clk`, in which the register port and the sequencer both act on the state
from before the edge (41_transmitter.md R73, 60_exceptions.md R100), or a change of `rst` (70_reset_and_hazards.md
R108). -/

namespace Sys2Proof.Machine

/-- What the sequencer wrote in an edge, put beside what the access wrote in it: `a` after the access alone, `q` after
the sequencer alone, both from `s`. The sequencer writes only while PHASE was not IDLE (41_transmitter.md R73). -/
def mergeEdge (s q a : State) : State :=
  if s.busy then
    { a with phase := q.phase, pidx := q.pidx, ucnt := q.ucnt, presc := q.presc, line := q.line }
  else a

/-- A rising edge of `clk` with `rst` = 0 (41_transmitter.md R73). -/
def runningEdge (p : PortPins) (s : State) : Result :=
  match sequencerEdge s with
  | .next q => mapNext (mergeEdge s q) (portAccess p s)
  | .fault r => .fault r
  | .refused r => .refused r

/-- A rising edge of `clk`: while `rst` = 1 every element stays at its reset value, reads return 0, writes are ignored
and `reg_err` is 0 (70_reset_and_hazards.md R108). -/
def clockEdge (p : PortPins) (s : State) : Result :=
  if s.rst then .next (assertReset s) else runningEdge p s

/-- The pin `rst` takes a level: 1 resets at once, 0 lets the next edge be a normal one (70_reset_and_hazards.md
R108, R109). -/
def setResetPin (level : Bool) (s : State) : State :=
  if level then assertReset s else { s with rst := false }

/-- The effect of one event. -/
def handleEvent (e : Event) (s : State) : Result :=
  match e with
  | .rst level => .next (setResetPin level s)
  | .edge p => clockEdge p s

/-- The event of a step and the events left after it: the oldest one, or, with none left, an edge without an access
(log 2). -/
def nextEvent : List Event → Event × List Event
  | [] => (.edge idlePins, [])
  | e :: rest => (e, rest)

end Sys2Proof.Machine
end

