-- ==== Sys2Proof/Machine/Step.lean ====
section
/-! DEFINITION. The machine's step: one event (log 1). -/

namespace Sys2Proof.Machine

/-- One step: the oldest event happens. -/
def step (s : State) : Host.Outcome State Fault Refusal :=
  handleEvent (nextEvent s.events).1 { s with events := (nextEvent s.events).2 }

/-- The block fetches nothing; its commands come from the host (10_state.md R27, log 13). This places the write of the
word `w` to CMD as the host's next access, with `rst` released, so that the next step issues it. -/
def State.withFetchWord (s : State) (nbits w : Nat) : State :=
  { s with
    rst := false
    events := .edge (writePins 0 (BitVec.ofNat 32 (w % 2 ^ nbits))) :: s.events }

end Sys2Proof.Machine
end

