-- ==== Sys2Proof/Machine/Assembler.lean ====
section
/-! DEFINITION. The host's side as spec/30_encoding.md R60 and R61 write it down: statements, pseudo-instructions,
what each puts on the register port, and a host that runs a program of them against the block. The block itself
(Machine/Step.lean) uses nothing of this file. -/

namespace Sys2Proof.Machine

/-- REG of `wr` and `rd` (30_encoding.md R60). -/
inductive RegName where
  | cmd
  | status
  | progress
  | frame (i : Nat)
  /-- A numeric address. -/
  | address (a : Nat)
deriving DecidableEq, Repr

/-- A statement of a host program: the statements of 30_encoding.md R60 and the pseudo-instructions of R61. -/
inductive Stmt where
  /-- `nop`, `wrfield`, `ldtpl`, `clear`, `xmit`, `zone`, `prog`. -/
  | command (i : Instr)
  /-- `wr REG, VALUE`. -/
  | wr (r : RegName) (v : Nat)
  /-- `rd REG`; the value read is named `$`. -/
  | rd (r : RegName)
  /-- `bnz MASK, LABEL`. -/
  | bnz (mask : Nat) (target : String)
  /-- `bz MASK, LABEL`. -/
  | bz (mask : Nat) (target : String)
  /-- `halt`. -/
  | halt
  /-- `name:`. -/
  | label (name : String)
  /-- `stopz Z` (R61). -/
  | stopz (zone : Nat)
  /-- `wait_idle` (R61). -/
  | waitIdle
  /-- `clrerr` (R61). -/
  | clrerr
  /-- `wrbyte I, V` (R61). -/
  | wrbyte (i v : Nat)
deriving DecidableEq, Repr

/-- A pseudo-instruction's expansion, with `fresh` the label it may need; any other statement stands for itself
(30_encoding.md R61). -/
def expandStmt (fresh : String) : Stmt → List Stmt
  | .stopz z => [.command (.zone z 0)]
  | .waitIdle => [.label fresh, .rd .status, .bnz 0x1 fresh]
  | .clrerr => [.wr .status 0x00070000]
  | .wrbyte i v => [.wr (.frame i) v]
  | st => [st]

/-- `addr(REG)` (30_encoding.md R60, 20_memory.md R33). FRAMEi with i above 14, and a numeric address above 0x7F, have
none: R60's list of refusals names neither (DESIGN CHOICE, log 22, safe). -/
def RegName.addr : RegName → Option (BitVec 7)
  | .cmd => some 0x00
  | .status => some 0x04
  | .progress => some 0x08
  | .frame i => if i < 15 then some (BitVec.ofNat 7 (0x40 + 4 * i)) else none
  | .address a => if a < 128 then some (BitVec.ofNat 7 a) else none

/-- The access a statement puts on the register port, if it makes one and the assembler does not refuse it: an operand
that does not fit its field is refused (30_encoding.md R60). A VALUE of `wr` above 32 bits, which R60's list of refusals
does not name, is refused too (DESIGN CHOICE, log 22, safe). -/
def stmtPins : Stmt → Option PortPins
  | .command i => if i.wellFormed then some (writePins 0x00 (encode i)) else none
  | .wr r v => if v < 2 ^ 32 then r.addr.map fun a => writePins a (BitVec.ofNat 32 v) else none
  | .rd r => r.addr.map readPins
  | _ => none

/-- A statement makes no access of its own. -/
def Stmt.isHostOnly : Stmt → Bool
  | .bnz _ _ | .bz _ _ | .halt | .label _ => true
  | _ => false

/-- The assembler accepts a statement that is left after expansion (30_encoding.md R60). -/
def stmtAccepted (st : Stmt) : Bool :=
  st.isHostOnly || (stmtPins st).isSome

/-- The names a statement gives to a place or goes to. -/
def Stmt.names : Stmt → List String
  | .label name => [name]
  | .bnz _ target | .bz _ target => [target]
  | _ => []

/-- The length of the longest name in a program. -/
def longestName (prog : List Stmt) : Nat :=
  (prog.flatMap Stmt.names).foldr (fun name n => max name.length n) 0

/-- The fresh label of the `wait_idle` at place `k` (30_encoding.md R61): longer than every name of the program, and of
another length at every other place. -/
def freshLabel (prog : List Stmt) (k : Nat) : String :=
  String.ofList (List.replicate (longestName prog + 1 + k) 'L')

/-- A program with its pseudo-instructions expanded, each `wait_idle` with a fresh label of its own (30_encoding.md
R61). -/
def expandProgram (prog : List Stmt) : List Stmt :=
  (prog.zipIdx.map fun p => expandStmt (freshLabel prog p.2) p.1).flatten

/-- The expanded program, or `none` where the assembler refuses a statement (30_encoding.md R60). -/
def assembleProgram (prog : List Stmt) : Option (List Stmt) :=
  if (expandProgram prog).all stmtAccepted then some (expandProgram prog) else none

/-- A host running a program: where it is, and the value `$` last read (30_encoding.md R60). -/
structure HostAgent where
  program : List Stmt
  at_ : Nat
  dollar : Word
  halted : Bool
deriving DecidableEq, Repr

/-- The place of a label. -/
def findLabel (prog : List Stmt) (name : String) : Option Nat :=
  prog.findIdx? (· == .label name)

/-- Go to a label if `taken`, else to the next statement; a label that does not stand in the program halts the host
(DESIGN CHOICE, log 17, safe). -/
def hostBranch (h : HostAgent) (taken : Bool) (name : String) : HostAgent :=
  if taken then
    match findLabel h.program name with
    | some k => { h with at_ := k }
    | none => { h with halted := true }
  else { h with at_ := h.at_ + 1 }

/-- `$` after a statement that left the block in state `s`: the value read by an `rd`, which alone names it
(30_encoding.md R60). -/
def dollarAfter (st : Stmt) (s : State) (dollar : Word) : Word :=
  match st with
  | .rd _ => s.rdata.getD dollar
  | _ => dollar

/-- One statement of the host, made after `wait` clock edges without an access: the spec fixes no host speed
(95_test_vectors.md section 3; DESIGN CHOICE, log 17, safe: `wait` is free). -/
def hostStep (wait : Nat) (h : HostAgent) (s : State) : HostAgent × Result :=
  match h.program[h.at_]? with
  | none => ({ h with halted := true }, .next s)
  | some .halt => ({ h with halted := true }, .next s)
  | some (.label _) => ({ h with at_ := h.at_ + 1 }, .next s)
  | some (.bnz mask name) => (hostBranch h (h.dollar &&& BitVec.ofNat 32 mask != 0) name, .next s)
  | some (.bz mask name) => (hostBranch h (h.dollar &&& BitVec.ofNat 32 mask == 0) name, .next s)
  | some st =>
    match stmtPins st with
    | none => ({ h with halted := true }, .next s)
    | some p =>
      let after := Sys2Proof.core.run (wait + 1)
        { s with events := List.replicate wait (.edge idlePins) ++ .edge p :: s.events }
      match after with
      | .next s' => ({ h with at_ := h.at_ + 1, dollar := dollarAfter st s' h.dollar }, .next s')
      | stop => ({ h with halted := true }, stop)

/-- A host's program run for at most the given waits, one statement each, from state `s`. -/
def runHost : List Nat → HostAgent → State → HostAgent × Result
  | [], h, s => (h, .next s)
  | w :: ws, h, s =>
    if h.halted then (h, .next s)
    else
      match hostStep w h s with
      | (h', .next s') => runHost ws h' s'
      | (h', stop) => (h', stop)

end Sys2Proof.Machine
end

