-- ==== Sys2Proof/Machine/Waveform.lean ====
section
/-! DEFINITION. The waveform of a transmission as the spec writes it, apart from the sequencer that produces it:
the segments, their levels and durations (41_transmitter.md R70), and where in them a tick lies (R76). -/

namespace Sys2Proof.Machine

/-- One waveform segment with the sequencer position it belongs to: its phase, its pulse index (0 in the prologue) and
its duration in ticks (41_transmitter.md R70, R76). -/
structure Segment where
  phase : Phase
  pulse : Nat
  ticks : Nat
deriving DecidableEq, Repr

/-- `Pulse(b)` as pulse `k`: a HIGH part and a LOW part (41_transmitter.md R68). -/
def pulseSegments (c : Config) (k : Nat) (b : Bool) : List Segment :=
  [⟨.bitH, k, (highTime c b).toNat⟩, ⟨.bitL, k, (lowTime c b).toNat⟩]

/-- Steps 1 and 2 of a transmission: reset (wake) and start (41_transmitter.md R70). -/
def prologueSegments (c : Config) : List Segment :=
  [⟨.resetH, 0, c.tResetH.toNat⟩, ⟨.resetL, 0, c.tResetL.toNat⟩,
   ⟨.startH, 0, c.tStartH.toNat⟩, ⟨.startL, 0, c.tStartL.toNat⟩]

/-- `Wave(FRAME, n, TRAIL)` with each segment's sequencer position (41_transmitter.md R70). Every pulse below NP has a
bit, so the default is never taken. -/
def waveSegments (c : Config) (f : Frame) (n : Nat) (trail : Bool) : List Segment :=
  prologueSegments c ++
    (List.range (pulseCount n trail)).flatMap fun k => pulseSegments c k ((txBit f n trail k).getD false)

/-- `Wave(FRAME, n, TRAIL)`: the line's levels and their durations (41_transmitter.md R70). -/
def wave (c : Config) (f : Frame) (n : Nat) (trail : Bool) : List (Bool × Nat) :=
  (waveSegments c f n trail).map fun g => (g.phase.level, g.ticks)

/-- The duration of a list of segments, in ticks. -/
def totalTicks (gs : List Segment) : Nat :=
  (gs.map (·.ticks)).sum

/-- The segment that tick `t` lies in, and the ticks left of it, counting tick `t` (41_transmitter.md R76). -/
def segmentAt : List Segment → Nat → Option (Segment × Nat)
  | [], _ => none
  | g :: gs, t => if t < g.ticks then some (g, g.ticks - t) else segmentAt gs (t - g.ticks)

end Sys2Proof.Machine
end

