-- ==== Sys2Proof/Safety.lean ====
section
/-! DEFINITION. What a sound block and a sound state are, in the terms the statements use. -/

namespace Sys2Proof.Machine

/-- Parameters a block can be built with: CLK_HZ is a positive multiple of 1 000 000 (00_scope.md R6), and each of the
six durations is at least one tick, since a segment holds its level for a whole number of ticks counted from d down
to 1 (10_state.md R18, 41_transmitter.md R75). -/
structure ConfigLegal (c : Config) : Prop where
  clk_pos : 0 < c.clkHz
  clk_mul : c.clkHz % 1000000 = 0
  resetH_pos : c.tResetH ≠ 0
  resetL_pos : c.tResetL ≠ 0
  startH_pos : c.tStartH ≠ 0
  startL_pos : c.tStartL ≠ 0
  short_pos : c.tShort ≠ 0
  long_pos : c.tLong ≠ 0

/-- The duration of the segment the sequencer is in (41_transmitter.md R70, R75); 0 at rest. -/
def State.segmentTicks (s : State) : Nat :=
  match s.phase with
  | .idle => 0
  | .resetH => s.cfg.tResetH.toNat
  | .resetL => s.cfg.tResetL.toNat
  | .startH => s.cfg.tStartH.toNat
  | .startL => s.cfg.tStartL.toNat
  | .bitH => (highTime s.cfg ((s.tx s.pidx.toNat).getD false)).toNat
  | .bitL => (lowTime s.cfg ((s.tx s.pidx.toNat).getD false)).toNat

/-- The phases in which a pulse is under way (10_state.md R16, R17). -/
def Phase.inPulse : Phase → Bool
  | .bitH | .bitL => true
  | .idle | .resetH | .resetL | .startH | .startL => false

/-- The legal values of every element, as 10_state.md R14-R20 state them, and the reset state while `rst` is 1
(70_reset_and_hazards.md R108). -/
structure State.Inv (s : State) : Prop where
  /-- The parameters are those of a block. -/
  cfg_legal : ConfigLegal s.cfg
  /-- FLEN is never 0 (R14). -/
  flen_pos : s.flen ≠ 0
  /-- LINE is the level of the present phase (R20). -/
  line_level : s.line = s.phase.level
  /-- PRESC counts from 0 to DIV-1 (R19). -/
  presc_lt : s.presc < clkDiv s.cfg
  /-- PIDX is 0 outside the pulses (R17). -/
  pidx_zero : s.phase.inPulse = false → s.pidx = 0
  /-- PIDX lies in 0..NP-1 (R17). -/
  pidx_lt : s.pidx.toNat < s.np
  /-- UCNT is 0 at rest (R18), and so is PRESC (R72, R73). -/
  idle_zero : s.phase = .idle → s.ucnt = 0 ∧ s.presc = 0
  /-- UCNT lies in 1..d while a segment of d ticks runs (R18). -/
  ucnt_range : s.phase ≠ .idle → 1 ≤ s.ucnt.toNat ∧ s.ucnt.toNat ≤ s.segmentTicks
  /-- While `rst` is 1 every element is at its reset value (R108). -/
  reset_held : s.rst = true → s = assertReset s

/-- No change of the `rst` pin is among the coming events: only clock edges, each with any access at all. -/
def onlyEdges (es : List Event) : Prop :=
  ∀ e ∈ es, ∃ p, e = .edge p

/-- An access that starts a transmission in an idle block: a full-word write to CMD of an XMIT, or of a ZONE or PROG in
range (41_transmitter.md R72, 42_command_encoders.md R81, R88). -/
def startsTransmission (p : PortPins) : Prop :=
  p.sel = true ∧ p.write = true ∧ p.be = 0b1111#4 ∧ p.addr = 0x00#7 ∧
    ((∃ t, decode p.wdata = .ok (.xmit t)) ∨
      (∃ z m, decode p.wdata = .ok (.zone z m) ∧ 1 ≤ z ∧ z ≤ 48 ∧ m ≤ 240) ∨
      ∃ q, decode p.wdata = .ok (.prog q) ∧ 1 ≤ q ∧ q ≤ 4)

end Sys2Proof.Machine
end

