-- ==== Sys2Proof/Certificates/Slice0/Obligations.lean ====
section
/-! DEFINITION. The statements about the HXCC bus encoder core, taken from the numbered rules of spec/. -/

open Sys2Proof Sys2Proof.Machine

/-! ### The command word -/

/-- Decoding the encoding of any well-formed command gives it back (30_encoding.md R46-R55, R59). -/
def Obligations.DecodeUndoesEncode : Prop :=
  ∀ i : Instr, i.wellFormed = true → decode (encode i) = .ok i

/-- Every word the decoder accepts is the encoding of the well-formed command it decodes to: so no two words mean one
command, and no bit of an accepted word is ignored (30_encoding.md R57, R59). -/
def Obligations.EncodeUndoesDecode : Prop :=
  ∀ (w : Word) (i : Instr), decode w = .ok i → i.wellFormed = true ∧ encode i = w

/-- Each mask and match pair of R48-R54 decodes to its command, with the operands at the bits R55 gives
(30_encoding.md R55). -/
def Obligations.DecodeReadsEachFormat : Prop :=
  ∀ w : Word,
    (w = 0x00000000#32 → decode w = .ok .nop) ∧
    (w &&& 0xFF80F800#32 = 0x10000000#32 →
      decode w = .ok (.wrfield (w.extractLsb 22 16).toNat (w.extractLsb 10 8).toNat (w.extractLsb 7 0).toNat)) ∧
    (w &&& 0xFFFFFFFE#32 = 0x20000000#32 →
      decode w = .ok (.ldtpl (if w.getLsbD 0 then .program else .zone))) ∧
    (w &&& 0xFFFFFFF0#32 = 0x30000000#32 → decode w = .ok (.clear (w.extractLsb 3 0).toNat)) ∧
    (w &&& 0xFFFFFFFE#32 = 0x40000000#32 → decode w = .ok (.xmit (w.getLsbD 0))) ∧
    (w &&& 0xFFFF0000#32 = 0x50000000#32 →
      decode w = .ok (.zone (w.extractLsb 7 0).toNat (w.extractLsb 15 8).toNat)) ∧
    (w &&& 0xFFFFFF00#32 = 0x60000000#32 → decode w = .ok (.prog (w.extractLsb 7 0).toNat))

/-- A word that fits none of the seven formats is illegal: for the reserved opcodes 0x7..0xF, and for a reserved-zero
bit that is set below them (30_encoding.md R56, R57). -/
def Obligations.OtherWordsAreIllegal : Prop :=
  ∀ w : Word,
    (7 ≤ (w.extractLsb 31 28).toNat → decode w = .error (.reservedOpcode (w.extractLsb 31 28).toNat)) ∧
    ((w.extractLsb 31 28).toNat < 7 →
      w ≠ 0x00000000#32 → w &&& 0xFF80F800#32 ≠ 0x10000000#32 → w &&& 0xFFFFFFFE#32 ≠ 0x20000000#32 →
      w &&& 0xFFFFFFF0#32 ≠ 0x30000000#32 → w &&& 0xFFFFFFFE#32 ≠ 0x40000000#32 →
      w &&& 0xFFFF0000#32 ≠ 0x50000000#32 → w &&& 0xFFFFFF00#32 ≠ 0x60000000#32 →
      decode w = .error (.reservedBitSet (w.extractLsb 31 28).toNat))

/-- Words of 95_test_vectors.md 2.1, one for each command and three illegal ones. -/
def Obligations.SampleWordsDecode : Prop :=
  decode 0x00000000#32 = .ok .nop ∧
  decode 0x10060405#32 = .ok (.wrfield 6 4 5) ∧
  decode 0x20000001#32 = .ok (.ldtpl .program) ∧
  decode 0x3000000F#32 = .ok (.clear 15) ∧
  decode 0x40000001#32 = .ok (.xmit true) ∧
  decode 0x50001E0D#32 = .ok (.zone 13 30) ∧
  decode 0x60000003#32 = .ok (.prog 3) ∧
  decode 0x00000001#32 = .error (.reservedBitSet 0) ∧
  decode 0x10800000#32 = .error (.reservedBitSet 1) ∧
  decode 0xFFFFFFFF#32 = .error (.reservedOpcode 15)

/-- The assembler writes a command statement as one full-word write to CMD whose word is that command, and refuses
exactly the operands that do not fit their fields (30_encoding.md R60). -/
def Obligations.AssembledCommandIsItsWord : Prop :=
  ∀ i : Instr,
    (i.wellFormed = true →
      ∃ w : Word, stmtPins (.command i) = some ⟨true, true, 0x00#7, 0b1111#4, w⟩ ∧ decode w = .ok i) ∧
    (i.wellFormed = false → stmtPins (.command i) = none)

/-! ### A step and a command -/

/-- An idle block out of reset, whose next event is a full-word write of `w` to CMD: if `w` decodes to `i`, the step is
`i`'s meaning on the state without that event, the port answering with no error (43_control.md R91, R92). That the
model then holds no read data is its own choice (log 4), and so is the list of events (log 2). -/
def Obligations.StepRunsTheDecodedCommand : Prop :=
  ∀ (s : State) (w : Word) (i : Instr) (rest : List Event),
    s.rst = false → s.busy = false →
    s.events = .edge ⟨true, true, 0x00#7, 0b1111#4, w⟩ :: rest → decode w = .ok i →
    step s =
      match exec i { s with events := rest } with
      | .next t => .next { t with rdata := none, err := false }
      | .fault r => .fault r
      | .refused r => .refused r

/-- A full-word write of an illegal word to CMD of an idle block sets ILC and has no other effect (30_encoding.md R56, R57, 60_exceptions.md
R94). No read data is held after it: the model's choice (log 4). -/
def Obligations.IllegalWordSetsIlcOnly : Prop :=
  ∀ (s : State) (w : Word) (e : DecodeError) (rest : List Event),
    s.rst = false → s.busy = false →
    s.events = .edge ⟨true, true, 0x00#7, 0b1111#4, w⟩ :: rest → decode w = .error e →
    step s = .next { s with events := rest, ilc := true, rdata := none, err := false }

/-- A write of any word to CMD while busy sets OVR and otherwise leaves exactly what the sequencer's edge leaves, the
word's own legality playing no part (43_control.md R91 step 1, 60_exceptions.md R95). No read data is held after it:
the model's choice (log 4). -/
def Obligations.CommandWhileBusySetsOvrOnly : Prop :=
  ∀ (s : State) (w : Word) (rest : List Event),
    s.Inv → s.rst = false → s.busy = true → s.events = .edge ⟨true, true, 0x00#7, 0b1111#4, w⟩ :: rest →
    ∃ q, sequencerEdge { s with events := rest } = .next q ∧
      step s = .next { q with ovr := true, rdata := none, err := false }

/-- Every command, whatever its operands, is rejected with OVR while BUSY, and changes nothing else (43_control.md R91,
60_exceptions.md R94). -/
def Obligations.BusyRejectsEveryCommand : Prop :=
  ∀ (i : Instr) (s : State), s.busy = true → exec i s = .next { s with ovr := true }

/-- A command's effect does not depend on the error flags, and it always completes: with any flag values it leaves the
same state but for the flags, and each flag only ever goes up (60_exceptions.md R96). -/
def Obligations.FlagsBlockNoCommand : Prop :=
  ∀ (i : Instr) (s : State) (a b c : Bool),
    ∃ t a' b' c', exec i s = .next t ∧
      exec i { s with ipe := a, ilc := b, ovr := c } = .next { t with ipe := a', ilc := b', ovr := c' } ∧
      (a = true → a' = true) ∧ (b = true → b' = true) ∧ (c = true → c' = true)

/-! ### The commands -/

/-- NOP changes no state in an idle block, sets OVR alone in a busy one, and is the one word 0, any other word of OP 0
being illegal (43_control.md R90). -/
def Obligations.NopChangesNothing : Prop :=
  (∀ s : State, s.busy = false → exec .nop s = .next s) ∧
  (∀ s : State, s.busy = true → exec .nop s = .next { s with ovr := true }) ∧
  (∀ w : Word, decode w = .ok .nop ↔ w = 0x00000000#32) ∧
  ∀ w : Word, w.extractLsb 31 28 = 0 → w ≠ 0x00000000#32 → decode w = .error (.reservedBitSet 0)

/-- WRFIELD of a field inside the frame writes the low WIDTH bits of VALUE at offsets POS..POS+WIDTH-1 in the order
FIELD_ORDER says, leaves every other frame bit, and changes nothing but FRAME (40_frame_builder.md R62, R64). -/
def Obligations.WrfieldWritesItsField : Prop :=
  ∀ (s : State) (pos width value : Nat),
    s.busy = false → 1 ≤ width → pos + width ≤ 8 * s.flen.toNat →
    ∃ f : Frame,
      exec (.wrfield pos width value) s = .next { s with frame := f } ∧
      ∀ o < 120, fbit f o =
        if pos ≤ o ∧ o < pos + width then
          (match s.cfg.fieldOrder with
            | .lsbAtPos => value.testBit (o - pos)
            | .msbAtPos => value.testBit (width - 1 - (o - pos)))
        else fbit s.frame o

/-- WRFIELD with WIDTH = 0, or of a field running past the frame, sets IPE and changes nothing else
(40_frame_builder.md R64). -/
def Obligations.WrfieldOutsideTheFrameSetsIpe : Prop :=
  ∀ (s : State) (pos width value : Nat),
    s.busy = false → width = 0 ∨ 8 * s.flen.toNat < pos + width →
    exec (.wrfield pos width value) s = .next { s with ipe := true }

/-- LDTPL loads the zone template with FLEN 15, or the program template with bytes 7..14 zero and FLEN 7, and changes
nothing else (40_frame_builder.md R65). -/
def Obligations.LdtplLoadsTheTemplate : Prop :=
  ∀ s : State, s.busy = false →
    exec (.ldtpl .zone) s = .next { s with frame := s.cfg.zoneTemplate, flen := 15 } ∧
    ∃ f : Frame,
      exec (.ldtpl .program) s = .next { s with frame := f, flen := 7 } ∧
      (∀ (i : Nat) (h : i < 7), f[i] = s.cfg.progTemplate[i]) ∧
      ∀ (i : Nat) (h : i < 15), 7 ≤ i → f[i] = 0x00#8

/-- CLEAR with LEN in 1..15 zeroes all 15 bytes and sets FLEN; with LEN = 0 it sets IPE; either way nothing else
changes (40_frame_builder.md R66). -/
def Obligations.ClearZeroesTheFrame : Prop :=
  ∀ s : State, s.busy = false →
    (∀ len, 1 ≤ len → len ≤ 15 →
      ∃ t, exec (.clear len) s = .next t ∧ t.flen.toNat = len ∧ (∀ o < 120, fbit t.frame o = false) ∧
        t = { s with frame := t.frame, flen := t.flen }) ∧
    exec (.clear 0) s = .next { s with ipe := true }

/-- XMIT in an idle block sets TRAIL and starts a transmission: the line rises with PHASE RESET_H and a whole T_RESET_H
to go; FRAME, FLEN and the flags stay (41_transmitter.md R71, R72). -/
def Obligations.XmitStartsATransmission : Prop :=
  ∀ (s : State) (t : Bool), s.busy = false →
    exec (.xmit t) s =
      .next { s with
        trail := t, phase := .resetH, line := true, ucnt := s.cfg.tResetH, pidx := 0, presc := 0 }

/-- A valid ZONE builds the zone frame and starts a transmission with the trailing bit: each field of R82 reads as the
table says, every frame bit outside the fields is the template's, and nothing but FRAME, FLEN, TRAIL and what StartTx
writes changes (42_command_encoders.md R82, R83). -/
def Obligations.ZoneBuildsAndSendsItsFrame : Prop :=
  ∀ (s : State) (z m : Nat), s.busy = false → 1 ≤ z → z ≤ 48 → m ≤ 240 →
    ∃ f : Frame,
      exec (.zone z m) s =
        .next { s with
          frame := f, flen := 15, trail := true
          phase := .resetH, line := true, ucnt := s.cfg.tResetH, pidx := 0, presc := 0 } ∧
      (let rows : List (Nat × Nat × Nat) :=
        [(9, 2, if z > 12 then 1 else 2), (23, 7, z + 0x17), (36, 7, z + 0x17), (49, 7, z + 0x23), (62, 7, z + 0x23),
         (75, 7, z + 0x2F), (88, 7, z + 0x2F), (31, 4, m % 16), (57, 4, m % 16), (83, 4, m % 16), (44, 4, m / 16),
         (70, 4, m / 16), (96, 4, m / 16), (109, 4, (z - 1) % 16)]
      (∀ r ∈ rows, readField s.cfg.fieldOrder r.1 r.2.1 f = r.2.2) ∧
      ∀ o < 120, (∀ r ∈ rows, o < r.1 ∨ r.1 + r.2.1 ≤ o) → fbit f o = fbit s.cfg.zoneTemplate o)

/-- An invalid ZONE sets IPE once and changes nothing else: no frame is built and no transmission starts
(42_command_encoders.md R81). -/
def Obligations.InvalidZoneSetsIpeOnly : Prop :=
  ∀ (s : State) (z m : Nat), s.busy = false → z = 0 ∨ 48 < z ∨ 240 < m →
    exec (.zone z m) s = .next { s with ipe := true }

/-- From the frame a valid ZONE built, zone and minutes are read back, from each copy of each field, under either
FIELD_ORDER and any template (42_command_encoders.md R86). -/
def Obligations.ZoneFrameGivesBackItsInputs : Prop :=
  ∀ (s : State) (z m : Nat), s.busy = false → 1 ≤ z → z ≤ 48 → m ≤ 240 →
    ∃ t, exec (.zone z m) s = .next t ∧
      (∀ p ∈ [(23, 0x17), (36, 0x17), (49, 0x23), (62, 0x23), (75, 0x2F), (88, 0x2F)],
        readField t.cfg.fieldOrder p.1 7 t.frame - p.2 = z) ∧
      ∀ p ∈ [(31, 44), (57, 70), (83, 96)],
        readField t.cfg.fieldOrder p.1 4 t.frame + 16 * readField t.cfg.fieldOrder p.2 4 t.frame = m

/-- The 14 fields of a zone frame share no offset and all end at or below offset 113, so each write meets
WriteField's precondition, and they may be written in any order (42_command_encoders.md R85). -/
def Obligations.ZoneFieldOrderIsIrrelevant : Prop :=
  ∀ (c : Config) (z m : Nat),
    (zoneFields z m).length = 14 ∧
    (∀ w ∈ zoneFields z m, 1 ≤ w.width ∧ w.width ≤ 7 ∧ w.pos + w.width ≤ 113) ∧
    (zoneFields z m).Pairwise (fun v w => v.pos + v.width ≤ w.pos ∨ w.pos + w.width ≤ v.pos) ∧
    ∀ ws : List FieldWrite,
      ws.Perm (zoneFields z m) → writeFields c.fieldOrder ws c.zoneTemplate = zoneFrame c z m

/-- A valid PROG builds the 7-byte frame, bytes 7..14 zero, and starts a transmission without the trailing bit: the
field at offset 31 reads program - 1, and every other frame bit is the template's (42_command_encoders.md R89). -/
def Obligations.ProgBuildsAndSendsItsFrame : Prop :=
  ∀ (s : State) (p : Nat), s.busy = false → 1 ≤ p → p ≤ 4 →
    ∃ f : Frame,
      exec (.prog p) s =
        .next { s with
          frame := f, flen := 7, trail := false
          phase := .resetH, line := true, ucnt := s.cfg.tResetH, pidx := 0, presc := 0 } ∧
      readField s.cfg.fieldOrder 31 2 f = p - 1 ∧
      (∀ o < 56, o ≠ 31 → o ≠ 32 → fbit f o = s.cfg.progTemplate[o / 8]!.getLsbD (7 - o % 8)) ∧
      ∀ o < 120, 56 ≤ o → fbit f o = false

/-- An invalid PROG sets IPE and changes nothing else (42_command_encoders.md R88). -/
def Obligations.InvalidProgSetsIpeOnly : Prop :=
  ∀ (s : State) (p : Nat), s.busy = false → p = 0 ∨ 4 < p → exec (.prog p) s = .next { s with ipe := true }

/-- Frame offset o is bit 7 - (o mod 8) of byte o div 8, and writing one offset leaves every other as it was
(20_memory.md R37). -/
def Obligations.FrameOffsetsAreMsbFirst : Prop :=
  ∀ (f : Frame) (o : Nat) (b : Bool) (h : o < 120),
    fbit f o = (f[o / 8]'(by omega)).getLsbD (7 - o % 8) ∧
    ∀ p < 120, fbit (setFbit f o b) p = if p = o then b else fbit f p

/-- What WriteField wrote, its inverse reads back: the low `width` bits of the value, under either FIELD_ORDER
(40_frame_builder.md R62, 42_command_encoders.md R86). -/
def Obligations.ReadFieldUndoesWriteField : Prop :=
  ∀ (order : FieldOrder) (pos value width : Nat) (f : Frame), pos + width ≤ 120 →
    readField order pos width (writeField order pos value width f) = value % 2 ^ width

/-! ### The register port -/

/-- The STATUS word's fields, PHASE as the number its table gives it, and zero at every reserved bit (10_state.md R16,
R21, R24). -/
def Obligations.StatusWordHasTheStatusFields : Prop :=
  ∀ s : State,
    (statusWord s).getLsbD 0 = s.busy ∧ (s.busy = true ↔ s.phase ≠ .idle) ∧ (statusWord s).getLsbD 1 = s.line ∧
    ((statusWord s).extractLsb 6 4).toNat =
      (match s.phase with
        | .idle => 0
        | .resetH => 1
        | .resetL => 2
        | .startH => 3
        | .startL => 4
        | .bitH => 5
        | .bitL => 6) ∧ (statusWord s).extractLsb 11 8 = s.flen ∧
    (statusWord s).getLsbD 12 = s.trail ∧ (statusWord s).getLsbD 16 = s.ipe ∧
    (statusWord s).getLsbD 17 = s.ilc ∧ (statusWord s).getLsbD 18 = s.ovr ∧
    ∀ k, k ∈ [2, 3, 7, 13, 14, 15] ∨ 19 ≤ k → (statusWord s).getLsbD k = false

/-- The PROGRESS word's fields, and zero above them (10_state.md R25). -/
def Obligations.ProgressWordHasItsFields : Prop :=
  ∀ s : State,
    (progressWord s).extractLsb 7 0 = s.pidx ∧ (progressWord s).extractLsb 26 8 = s.ucnt ∧
    ∀ k, 27 ≤ k → (progressWord s).getLsbD k = false

/-- A legal read answers by the address map from the state before the edge, with no error, and changes nothing: all the
rest is what the sequencer's edge alone leaves (20_memory.md R33, R34, R35). -/
def Obligations.ReadsAnswerByTheMap : Prop :=
  ∀ (s : State) (a : BitVec 7) (v : Word) (rest : List Event),
    s.Inv → s.rst = false → a.toNat % 4 = 0 → s.events = .edge ⟨true, false, a, 0b1111#4, v⟩ :: rest →
    ∃ q d, sequencerEdge { s with events := rest } = .next q ∧
      step s = .next { q with rdata := some d, err := false } ∧
      (a = 0x00#7 → d = 0) ∧ (a = 0x04#7 → d = statusWord s) ∧ (a = 0x08#7 → d = progressWord s) ∧
      (∀ (i : Nat) (h : i < 15), a.toNat = 0x40 + 4 * i → d = (s.frame[i]).setWidth 32) ∧
      (0x0C ≤ a.toNat ∧ a.toNat ≤ 0x3C ∨ a.toNat = 0x7C → d = 0)

/-- A legal write to any address but CMD: STATUS clears the flags whose bits are 1, FRAMEi takes the low byte or sets
OVR while busy, PROGRESS and unmapped addresses ignore it; all the rest is what the sequencer's edge alone leaves
(20_memory.md R34, R36). No read data is held after a write: the model's choice (log 4). -/
def Obligations.WritesTakeEffectByTheMap : Prop :=
  ∀ (s : State) (a : BitVec 7) (v : Word) (rest : List Event),
    s.Inv → s.rst = false → a.toNat % 4 = 0 → s.events = .edge ⟨true, true, a, 0b1111#4, v⟩ :: rest →
    ∃ q, sequencerEdge { s with events := rest } = .next q ∧
      (a = 0x04#7 →
        step s = .next { q with
          ipe := s.ipe && !v.getLsbD 16, ilc := s.ilc && !v.getLsbD 17, ovr := s.ovr && !v.getLsbD 18
          rdata := none, err := false }) ∧
      (a = 0x08#7 → step s = .next { q with rdata := none, err := false }) ∧
      (∀ (i : Nat) (h : i < 15), a.toNat = 0x40 + 4 * i →
        step s =
          if s.busy then .next { q with ovr := true, rdata := none, err := false }
          else .next { q with frame := s.frame.set i (v.extractLsb' 0 8), rdata := none, err := false }) ∧
      (0x0C ≤ a.toNat ∧ a.toNat ≤ 0x3C ∨ a.toNat = 0x7C → step s = .next { q with rdata := none, err := false })

/-- An access that is not a full word at a word-aligned address gets the error response and has no effect, a refused
read returning 0; no STATUS flag is set, in a busy block or an idle one (20_memory.md R32). -/
def Obligations.PartialOrMisalignedAccessIsRefused : Prop :=
  ∀ (s : State) (p : PortPins) (rest : List Event),
    s.Inv → s.rst = false → p.sel = true → p.be ≠ 0b1111#4 ∨ p.addr.toNat % 4 ≠ 0 → s.events = .edge p :: rest →
    ∃ q, sequencerEdge { s with events := rest } = .next q ∧
      ∃ d, step s = .next { q with err := true, rdata := d } ∧ (p.write = false → d = some 0x00000000#32)

/-- The error flags are sticky: only a write of 1 to the flag's STATUS bit, or the reset pin, takes one down
(10_state.md R22, 60_exceptions.md R96, R97). -/
def Obligations.FlagsAreSticky : Prop :=
  ∀ s s' : State, s.rst = false → step s = .next s' →
    (∀ rest, s.events ≠ .rst true :: rest) →
    let kept (bit : Nat) : Prop :=
      ∀ p rest, s.events = .edge p :: rest → p.sel = true → p.write = true → p.be = 0b1111#4 → p.addr = 0x04#7 →
        p.wdata.getLsbD bit = false
    (s.ipe = true → kept 16 → s'.ipe = true) ∧ (s.ilc = true → kept 17 → s'.ilc = true) ∧
      (s.ovr = true → kept 18 → s'.ovr = true)

/-! ### The sequencer and the waveform -/

/-- At the last tick of a segment the sequencer moves to the next one, as the protocol's order and the pulse's bit say
(41_transmitter.md R75); before it, UCNT counts down. -/
def Obligations.TickEndAdvances : Prop :=
  ∀ s : State, s.Inv → s.phase ≠ .idle →
    (1 < s.ucnt.toNat → tickEnd s = .next { s with ucnt := s.ucnt - 1 }) ∧
    (s.ucnt = 1 →
      (s.phase = .resetH → tickEnd s = .next { s with phase := .resetL, line := false, ucnt := s.cfg.tResetL }) ∧
      (s.phase = .resetL → tickEnd s = .next { s with phase := .startH, line := true, ucnt := s.cfg.tStartH }) ∧
      (s.phase = .startH → tickEnd s = .next { s with phase := .startL, line := false, ucnt := s.cfg.tStartL }) ∧
      (s.phase = .startL → ∃ b, s.tx 0 = some b ∧
        tickEnd s = .next { s with
          phase := .bitH, line := true, pidx := 0, ucnt := if b then s.cfg.tLong else s.cfg.tShort }) ∧
      (s.phase = .bitH → ∃ b, s.tx s.pidx.toNat = some b ∧
        tickEnd s = .next { s with phase := .bitL, line := false, ucnt := if b then s.cfg.tShort else s.cfg.tLong }) ∧
      (s.phase = .bitL → s.pidx.toNat + 1 = s.np →
        tickEnd s = .next { s with phase := .idle, line := false, pidx := 0, ucnt := 0 }) ∧
      (s.phase = .bitL → s.pidx.toNat + 1 ≠ s.np → ∃ b, s.tx (s.pidx.toNat + 1) = some b ∧
        tickEnd s = .next { s with
          phase := .bitH, line := true, pidx := s.pidx + 1, ucnt := if b then s.cfg.tLong else s.cfg.tShort }))

/-- The pulse sequence: the frame's bits in offset order, a 1 where the trailing bit is asked for, a 0 last, and as
many pulses as R69 counts (41_transmitter.md R69). -/
def Obligations.PulsesCarryFrameTrailStop : Prop :=
  ∀ s : State,
    s.np = 8 * s.flen.toNat + (if s.trail then 1 else 0) + 1 ∧
    (∀ k, k < 8 * s.flen.toNat → s.tx k = some (fbit s.frame k)) ∧
    (s.trail = true → s.tx (8 * s.flen.toNat) = some true) ∧
    s.tx (s.np - 1) = some false ∧
    (∀ k, s.np ≤ k → s.tx k = none) ∧
    pulseCount 15 true = 122 ∧ pulseCount 7 false = 57

/-- With no access and `rst` = 0, an idle block stays exactly as it is, the line LOW, whatever the port's other pins say
(41_transmitter.md R67, 10_state.md R30). A step with no event left is an edge without an access, and no read data is
held after either: the model's choices (log 2, log 4). -/
def Obligations.IdleBlockRests : Prop :=
  ∀ s : State, s.Inv → s.rst = false → s.busy = false →
    s.line = false ∧
    (s.events = [] → step s = .next { s with rdata := none, err := false }) ∧
    ∀ (p : PortPins) (rest : List Event), p.sel = false → s.events = .edge p :: rest →
      step s = .next { s with events := rest, rdata := none, err := false }

/-- A clock edge with `reg_sel` = 0 is the sequencer's edge alone, in an idle block or a busy one, whatever the other
pins say: nothing is written, no flag is set and there is no error response (10_state.md R30, 41_transmitter.md R73).
That no read data is held after it is the model's choice (log 4). -/
def Obligations.UnselectedEdgeRunsTheSequencerOnly : Prop :=
  ∀ (s : State) (p : PortPins) (rest : List Event),
    s.Inv → s.rst = false → p.sel = false → s.events = .edge p :: rest →
    ∃ q, sequencerEdge { s with events := rest } = .next q ∧
      step s = .next { q with rdata := none, err := false } ∧
      q.frame = s.frame ∧ q.flen = s.flen ∧ q.trail = s.trail ∧
      q.ipe = s.ipe ∧ q.ilc = s.ilc ∧ q.ovr = s.ovr ∧
      q.events = rest ∧ q.rst = false ∧ q.cfg = s.cfg

/-- One tick is DIV clock edges: from the start of a tick, DIV edges without an access do exactly one TickEnd
(41_transmitter.md R74). The empty list of events and the absent read data are the model's choices (log 2, log 4). -/
def Obligations.DivEdgesMakeOneTick : Prop :=
  ∀ s : State, s.Inv → s.rst = false → s.busy = true → s.presc = 0 → s.events = [] →
    ∃ t, tickEnd s = .next t ∧
      Sys2Proof.core.run (clkDiv s.cfg) s = .next { t with rdata := none, err := false }

/-- The sequencer drives exactly the waveform. From the state an accepted XMIT, ZONE or PROG leaves, whatever the host
does at each clock edge, as long as `rst` stays 0: after k edges, k below the whole length, the block is in the segment
of Wave that tick k / DIV lies in, with that segment's phase, pulse, level and ticks left; after the whole length it is
idle, the line LOW, FRAME, FLEN and TRAIL as they were at acceptance; and it stays idle and LOW until an access that
starts a transmission comes (41_transmitter.md R70, R76, R77, R78). That an edge
past the end of the list of events has no access is the model's choice (log 2). -/
def Obligations.SequencerDrivesExactlyTheWave : Prop :=
  ∀ s : State, s.Inv → s.rst = false → s.phase = .resetH → s.ucnt = s.cfg.tResetH → s.presc = 0 →
    onlyEdges s.events →
    (∀ k, k < totalTicks (waveSegments s.cfg s.frame s.flen.toNat s.trail) * clkDiv s.cfg →
      ∃ (s' : State) (g : Segment) (left : Nat),
        Sys2Proof.core.run k s = .next s' ∧
        segmentAt (waveSegments s.cfg s.frame s.flen.toNat s.trail) (k / clkDiv s.cfg) = some (g, left) ∧
        s'.phase = g.phase ∧ s'.pidx.toNat = g.pulse ∧ s'.ucnt.toNat = left ∧ s'.presc = k % clkDiv s.cfg ∧
        s'.line = g.phase.level ∧ s'.busy = true) ∧
    (∃ s' : State,
      Sys2Proof.core.run (totalTicks (waveSegments s.cfg s.frame s.flen.toNat s.trail) * clkDiv s.cfg) s = .next s' ∧
      s'.phase = .idle ∧ s'.busy = false ∧ s'.line = false ∧ s'.pidx = 0 ∧ s'.ucnt = 0 ∧
      s'.frame = s.frame ∧ s'.flen = s.flen ∧ s'.trail = s.trail) ∧
    ∀ k, totalTicks (waveSegments s.cfg s.frame s.flen.toNat s.trail) * clkDiv s.cfg ≤ k →
      ∃ s' : State, Sys2Proof.core.run k s = .next s' ∧
        (s'.line = false ∧ s'.busy = false ∨
          ∃ p, .edge p ∈ (s.events.take k).drop
              (totalTicks (waveSegments s.cfg s.frame s.flen.toNat s.trail) * clkDiv s.cfg) ∧
            startsTransmission p)

/-- The waveform's shape: 2*NP + 4 segments, alternating HIGH and LOW from a HIGH one (41_transmitter.md R70). -/
def Obligations.WaveAlternates : Prop :=
  ∀ (c : Config) (f : Frame) (n : Nat) (trail : Bool),
    (wave c f n trail).length = 2 * pulseCount n trail + 4 ∧
    ∀ (k : Nat) (h : k < (wave c f n trail).length), (wave c f n trail)[k].1 = decide (k % 2 = 0)

/-- A transmission lasts its prologue and NP pulses of T_SHORT + T_LONG ticks, whatever the frame's bits; with the
default durations 645234 ticks for a zone frame and 509839 for a program frame, pulse k beginning at tick
391108 + 2083*k (41_transmitter.md R79). -/
def Obligations.TransmissionDuration : Prop :=
  (∀ (c : Config) (f : Frame) (n : Nat) (trail : Bool),
    totalTicks (waveSegments c f n trail) =
      c.tResetH.toNat + c.tResetL.toNat + c.tStartH.toNat + c.tStartL.toNat
        + (8 * n + trail.toNat + 1) * (c.tShort.toNat + c.tLong.toNat)) ∧
  (∀ f n trail, totalTicks (waveSegments defaultConfig f n trail) = 391108 + 2083 * (8 * n + trail.toNat + 1)) ∧
  (∀ f n trail k, k < 8 * n + trail.toNat + 1 →
    totalTicks ((waveSegments defaultConfig f n trail).take (4 + 2 * k)) = 391108 + 2083 * k ∧
    ((waveSegments defaultConfig f n trail)[4 + 2 * k]?.map (·.pulse)) = some k) ∧
  (∀ f, totalTicks (waveSegments defaultConfig f 15 true) = 645234) ∧
  ∀ f, totalTicks (waveSegments defaultConfig f 7 false) = 509839

/-- A transmission cannot be interrupted or changed from the register port: in a busy block any access at all leaves
the sequencer, the line, FRAME, FLEN and TRAIL where an edge without an access leaves them, and FRAME, FLEN and TRAIL
as they were (41_transmitter.md R77, 20_memory.md R45). -/
def Obligations.AccessesDoNotTouchATransmission : Prop :=
  ∀ (s : State) (p : PortPins) (rest : List Event), s.Inv → s.rst = false → s.busy = true →
    ∃ t u, step { s with events := .edge p :: rest } = .next t ∧
      step { s with events := .edge ⟨false, false, 0, 0, 0⟩ :: rest } = .next u ∧
      t.phase = u.phase ∧ t.pidx = u.pidx ∧ t.ucnt = u.ucnt ∧ t.presc = u.presc ∧ t.line = u.line ∧
      t.frame = s.frame ∧ t.flen = s.flen ∧ t.trail = s.trail ∧
      u.frame = s.frame ∧ u.flen = s.flen ∧ u.trail = s.trail

/-! ### Reset, and the machine as a whole -/

/-- The reset values of every element, for any parameters, the words a host reads of them, and the port's outputs while
`rst` is 1 (70_reset_and_hazards.md R110). -/
def Obligations.ResetValues : Prop :=
  ∀ c : Config,
    (∀ (i : Nat) (h : i < 15), (State.resetFor c).frame[i] = 0x00#8) ∧
    (State.resetFor c).flen = 15 ∧ (State.resetFor c).trail = false ∧ (State.resetFor c).phase = .idle ∧
    (State.resetFor c).pidx = 0 ∧ (State.resetFor c).ucnt = 0 ∧ (State.resetFor c).presc = 0 ∧
    (State.resetFor c).line = false ∧ (State.resetFor c).busy = false ∧ (State.resetFor c).ipe = false ∧
    (State.resetFor c).ilc = false ∧ (State.resetFor c).ovr = false ∧
    memRead 0x04#7 (State.resetFor c) = 0x00000F00#32 ∧ memRead 0x08#7 (State.resetFor c) = 0x00000000#32 ∧
    (∀ a : BitVec 7, a.toNat % 4 = 0 → 0x40 ≤ a.toNat → a.toNat ≤ 0x78 → memRead a (State.resetFor c) = 0x00000000#32) ∧
    ∀ s : State, s.cfg = c →
      (assertReset s).rdata = some 0x00000000#32 ∧ (assertReset s).err = false ∧
      assertReset s = { State.resetFor c with rst := true, events := s.events, rdata := some 0, err := false }

/-- Reset ends a transmission at once, and anything else: when `rst` rises, every element takes its reset value, and
while it stays 1 any access reads 0, writes nothing and gets no error response; once it falls, the block is in its
reset state and a clock edge is a normal one (70_reset_and_hazards.md R108, R109). -/
def Obligations.ResetPinResetsAndHolds : Prop :=
  (∀ (s : State) (rest : List Event), s.events = .rst true :: rest →
    step s = .next { State.resetFor s.cfg with rst := true, events := rest }) ∧
  (∀ (s : State) (p : PortPins) (rest : List Event), s.rst = true → s.events = .edge p :: rest →
    step s = .next { State.resetFor s.cfg with rst := true, events := rest, rdata := some 0, err := false }) ∧
  (∀ (s : State) (rest : List Event), s.Inv → s.rst = true → s.events = .rst false :: rest →
    ∃ d e, step s = .next { State.resetFor s.cfg with events := rest, rdata := d, err := e }) ∧
  ∀ (s : State) (p : PortPins) (rest : List Event), s.rst = false → s.events = .edge p :: rest →
    step s = runningEdge p { s with events := rest }

/-- Every step keeps every element in its legal values, from any legal state (10_state.md R14, R16-R20,
70_reset_and_hazards.md R108). -/
def Obligations.EveryStepKeepsTheInvariant : Prop :=
  ∀ s s' : State, s.Inv → step s = .next s' → s'.Inv

/-- The reset state is legal, for every legal choice of parameters and for the default one. -/
def Obligations.ResetMeetsTheInvariant : Prop :=
  (∀ c : Config, ConfigLegal c → (State.resetFor c).Inv) ∧ State.reset.Inv

/-- In a legal state every step has a next state: no command, access, tick or reset stops the block. TickEnd
and Advance always have a result, and the sequencer's own edge raises no error (60_exceptions.md R101). -/
def Obligations.LegalStateNeverStops : Prop :=
  ∀ s : State, s.Inv →
    (∃ s', step s = .next s') ∧
    (s.busy = true → (∃ t, tickEnd s = .next t) ∧ ∃ t, advance s = .next t) ∧
    ∃ q, sequencerEdge s = .next q ∧ q.ipe = s.ipe ∧ q.ilc = s.ilc ∧ q.ovr = s.ovr ∧ q.err = s.err

/-- The parameters never change (10_state.md R29). -/
def Obligations.ParametersNeverChange : Prop :=
  ∀ s s' : State, step s = .next s' → s'.cfg = s.cfg

/-! ### The host's notation -/

/-- The pseudo-instructions' expansions, and an assembled program: it is the expansion of each statement in the program's
order, none left out, each `wait_idle` under a label of its own: no label or branch of the program as written uses it,
no other `wait_idle` has it, and its branch goes back to its own poll, which stands right after the expansions of the
statements before it (30_encoding.md R61). -/
def Obligations.PseudoInstructionsExpandFresh : Prop :=
  (∀ (l : String) (z i v : Nat),
    expandStmt l (.stopz z) = [.command (.zone z 0)] ∧
    expandStmt l .waitIdle = [.label l, .rd .status, .bnz 0x1 l] ∧
    expandStmt l .clrerr = [.wr .status 0x00070000] ∧
    expandStmt l (.wrbyte i v) = [.wr (.frame i) v] ∧
    (i < 15 → (RegName.frame i).addr = some (BitVec.ofNat 7 (0x40 + 4 * i)))) ∧
  ∀ prog out : List Stmt, assembleProgram prog = some out →
    ∃ label : Nat → String,
      out = (prog.zipIdx.map fun p => expandStmt (label p.2) p.1).flatten ∧
      (∀ k, ∀ st ∈ prog, label k ∉ st.names) ∧
      (∀ j k, prog[j]? = some .waitIdle → prog[k]? = some .waitIdle → label j = label k → j = k) ∧
      ∀ k, prog[k]? = some .waitIdle →
        findLabel out (label k) =
          some ((prog.take k).zipIdx.map fun p => expandStmt (label p.2) p.1).flatten.length

/-- Only `rd` names `$`: after any other statement, whatever the block answers, `$` is as it was. An `rd` made at once
names the word its address reads before the edge, or 0 where the access is refused or `rst` is 1 (30_encoding.md R60,
20_memory.md R32, R35, 70_reset_and_hazards.md R108). -/
def Obligations.OnlyRdNamesDollar : Prop :=
  (∀ (wait : Nat) (h : HostAgent) (s : State),
    (∀ r, h.program[h.at_]? ≠ some (.rd r)) → (hostStep wait h s).1.dollar = h.dollar) ∧
  ∀ (h : HostAgent) (s : State) (r : RegName) (a : BitVec 7),
    s.Inv → h.program[h.at_]? = some (.rd r) → r.addr = some a →
    ∃ s', hostStep 0 h s =
      ({ h with
          at_ := h.at_ + 1
          dollar := if s.rst = false ∧ a.toNat % 4 = 0 then memRead a s else 0x00000000#32 },
        .next s')
end

