-- ==== Sys2Proof/Laws/Assembler.lean ====
section
/-! SUPPORT. The fresh labels of an expanded program, and what a host statement does to `$`. -/

namespace Sys2Proof.Machine

/-! ### Fresh labels (30_encoding.md R61) -/

@[simp] theorem length_freshLabel (prog : List Stmt) (k : Nat) :
    (freshLabel prog k).length = longestName prog + 1 + k := by
  simp [freshLabel]

theorem freshLabel_injective (prog : List Stmt) {j k : Nat} (h : freshLabel prog j = freshLabel prog k) : j = k := by
  have := congrArg String.length h
  simp only [length_freshLabel] at this
  omega

theorem length_le_longestName {prog : List Stmt} {st : Stmt} {name : String} (hs : st ∈ prog) (hn : name ∈ st.names) :
    name.length ≤ longestName prog := by
  have key : ∀ ns : List String, name ∈ ns → name.length ≤ ns.foldr (fun m n => max m.length n) 0 := by
    intro ns
    induction ns with
    | nil => intro h; cases h
    | cons m ns ih =>
      intro h
      rw [List.foldr_cons]
      rcases List.mem_cons.1 h with rfl | h
      · exact le_max_left _ _
      · exact le_trans (ih h) (le_max_right _ _)
  exact key _ (List.mem_flatMap.2 ⟨st, hs, hn⟩)

/-- A fresh label is no name of the program. -/
theorem freshLabel_notMem (prog : List Stmt) (k : Nat) {st : Stmt} (hs : st ∈ prog) : freshLabel prog k ∉ st.names := by
  intro h
  have := length_le_longestName hs h
  rw [length_freshLabel] at this
  omega

/-- The labels an expansion holds: the fresh one, if the statement is `wait_idle`, or the statement's own. -/
theorem label_mem_expandStmt {fresh name : String} {st : Stmt} (h : .label name ∈ expandStmt fresh st) :
    st = .waitIdle ∧ name = fresh ∨ name ∈ st.names := by
  cases st <;> simp_all [expandStmt, Stmt.names]

/-- What the assembler answers, it answers with the whole expanded program. -/
theorem assembleProgram_eq_some {prog out : List Stmt} (h : assembleProgram prog = some out) :
    out = expandProgram prog := by
  unfold assembleProgram at h
  split at h
  · exact (Option.some.inj h).symm
  · cases h

/-! ### `$` (30_encoding.md R60) -/

@[simp] theorem dollarAfter_rd (r : RegName) (s : State) (d : Word) : dollarAfter (.rd r) s d = s.rdata.getD d := rfl

theorem dollarAfter_of_not_rd {st : Stmt} (s : State) (d : Word) (h : ∀ r, st ≠ .rd r) : dollarAfter st s d = d := by
  cases st <;> first | rfl | exact absurd rfl (h _)

@[simp] theorem hostBranch_dollar (h : HostAgent) (taken : Bool) (name : String) :
    (hostBranch h taken name).dollar = h.dollar := by
  unfold hostBranch
  repeat' split
  all_goals rfl

end Sys2Proof.Machine
end

