-- ==== Sys2Proof/Laws/Decode.lean ====
section
/-! SUPPORT. The bit fields of a command word as bits, and what an accepted word's command can be. -/

namespace Sys2Proof

/-- Every bit field is below 2 to its width. -/
theorem field_lt (w : Word) (hi lo : Nat) : field w hi lo < 2 ^ (hi + 1 - lo) :=
  Nat.mod_lt _ (Nat.two_pow_pos _)

/-- `field` is the library's slice of the same bits. -/
theorem field_eq_extractLsb (w : Word) (hi lo : Nat) (h : lo ≤ hi) : field w hi lo = (w.extractLsb hi lo).toNat := by
  unfold field
  rw [BitVec.extractLsb_toNat, Nat.shiftRight_eq_div_pow]
  congr 2
  omega

theorem orReserved_eq_ok {op : Nat} {b : Bool} {i j : Instr} (h : orReserved op b i = .ok j) : b = true ∧ i = j := by
  cases b
  · cases h
  · exact ⟨rfl, by injection h⟩

theorem orReserved_of_true {op : Nat} {b : Bool} (i : Instr) (h : b = true) : orReserved op b i = .ok i := by
  subst h; rfl

/-- A decoded command is well-formed: each operand is read from its own field (30_encoding.md R55). -/
theorem wellFormed_of_decode {w : Word} {i : Instr} (h : decode w = .ok i) : i.wellFormed = true := by
  unfold decode at h
  split at h
  · obtain ⟨-, rfl⟩ := orReserved_eq_ok h; rfl
  · obtain ⟨-, rfl⟩ := orReserved_eq_ok h
    have h1 := field_lt w 22 16
    have h2 := field_lt w 10 8
    have h3 := field_lt w 7 0
    simp only [Instr.wellFormed, Bool.and_eq_true, decide_eq_true_eq]
    omega
  · obtain ⟨-, rfl⟩ := orReserved_eq_ok h; rfl
  · obtain ⟨-, rfl⟩ := orReserved_eq_ok h
    exact decide_eq_true (field_lt w 3 0)
  · obtain ⟨-, rfl⟩ := orReserved_eq_ok h; rfl
  · obtain ⟨-, rfl⟩ := orReserved_eq_ok h
    have h1 := field_lt w 7 0
    have h2 := field_lt w 15 8
    simp only [Instr.wellFormed, Bool.and_eq_true, decide_eq_true_eq]
    omega
  · obtain ⟨-, rfl⟩ := orReserved_eq_ok h
    exact decide_eq_true (field_lt w 7 0)
  · cases h

/-- The number a command word is, for operands that fit below the OP field. -/
theorem toNat_encode (i : Instr) (h : i.operands < 2 ^ 28) : (encode i).toNat = i.opcode * 2 ^ 28 + i.operands := by
  have h2 : i.opcode < 16 := by cases i <;> simp [Instr.opcode]
  unfold encode
  rw [BitVec.toNat_ofNat]
  exact Nat.mod_eq_of_lt (by omega)

/-- A word that is the number of a command is its encoding. -/
theorem encode_eq_of_toNat {w : Word} {i : Instr} (h : i.opcode * 2 ^ 28 + i.operands = w.toNat) : encode i = w := by
  unfold encode
  rw [h, BitVec.ofNat_toNat, BitVec.setWidth_eq]

end Sys2Proof
end

