-- ==== Sys2Proof/Laws/Frame.lean ====
section
/-! SUPPORT. The frame's bits: what writing one bit, one field and a list of fields does to every bit, and that a frame
is known by its 120 bits. -/

namespace Sys2Proof.Machine

/-! ### One bit -/

/-- Each bit of a byte after one of its bits is set. -/
theorem getLsbD_setByteBit (x : Byte) (k j : Nat) (b : Bool) (hj : j < 8) :
    (setByteBit x k b).getLsbD j = if j = k then b else x.getLsbD j := by
  cases b <;> by_cases h : j = k <;> simp [setByteBit, hj, h] <;> omega

theorem frameByte_of_lt (f : Frame) (i : Nat) (h : i < 15) : frameByte f i = f[i] := by
  simp [frameByte, h]

theorem frameByte_of_ge (f : Frame) (i : Nat) (h : 15 ≤ i) : frameByte f i = 0 := by
  have : f[i]? = none := by simp; omega
  simp [frameByte, this]

/-- Each byte after one byte is replaced. -/
theorem frameByte_setIfInBounds (f : Frame) (i j : Nat) (b : Byte) :
    frameByte (f.setIfInBounds i b) j = if j = i ∧ i < 15 then b else frameByte f j := by
  by_cases hj : j < 15
  · by_cases h : i = j
    · subst h; simp [frameByte, hj]
    · simp [frameByte, h, Ne.symm h]
  · rw [frameByte_of_ge _ _ (by omega), frameByte_of_ge _ _ (by omega)]
    simp; omega

/-- Two offsets inside the buffer are the same place only if they are the same offset (20_memory.md R37). -/
theorem fbit_setFbit (f : Frame) (o p : Nat) (b : Bool) (ho : o < 120) :
    fbit (setFbit f o b) p = if p = o then b else fbit f p := by
  unfold fbit setFbit
  rw [frameByte_setIfInBounds]
  by_cases h : p / 8 = o / 8
  · have h15 : o / 8 < 15 := by omega
    simp only [h, h15, and_self, if_true]
    rw [getLsbD_setByteBit _ _ _ _ (by omega)]
    have : (7 - p % 8 = 7 - o % 8) ↔ p = o := by omega
    simp [this]
  · have : p ≠ o := by rintro rfl; exact h rfl
    simp [h, this]

/-- A frame is known by its 120 bits. -/
theorem frame_ext_fbit {f g : Frame} (h : ∀ o < 120, fbit f o = fbit g o) : f = g := by
  apply Vector.ext
  intro i hi
  rw [← frameByte_of_lt f i hi, ← frameByte_of_lt g i hi]
  apply BitVec.eq_of_getLsbD_eq
  intro j hj
  have := h (8 * i + (7 - j)) (by omega)
  unfold fbit at this
  rwa [show (8 * i + (7 - j)) / 8 = i by omega, show 7 - (8 * i + (7 - j)) % 8 = j by omega] at this

@[simp] theorem fbit_zeroFrame (o : Nat) : fbit zeroFrame o = false := by
  unfold fbit
  by_cases h : o / 8 < 15
  · rw [frameByte_of_lt _ _ h]; simp [zeroFrame]
  · rw [frameByte_of_ge _ _ (by omega)]; simp

/-! ### One field -/

/-- Every bit after the first `n` bits of a field are written. -/
theorem fbit_writeBits (order : FieldOrder) (pos value width n : Nat) (f : Frame) (o : Nat) (h : pos + n ≤ 120) :
    fbit (writeBits order pos value width n f) o =
      if pos ≤ o ∧ o < pos + n then valueBit order value width (o - pos) else fbit f o := by
  induction n with
  | zero => simp [writeBits]
  | succ n ih =>
    rw [writeBits, fbit_setFbit _ _ _ _ (by omega), ih (by omega)]
    by_cases h1 : o = pos + n
    · subst h1; simp
    · have : (pos ≤ o ∧ o < pos + n) ↔ (pos ≤ o ∧ o < pos + (n + 1)) := by omega
      simp [h1, this]

/-- Every bit after `WriteField`: the field's from the value, all others untouched (40_frame_builder.md R62). -/
theorem fbit_writeField (order : FieldOrder) (pos value width : Nat) (f : Frame) (o : Nat) (h : pos + width ≤ 120) :
    fbit (writeField order pos value width f) o =
      if pos ≤ o ∧ o < pos + width then valueBit order value width (o - pos) else fbit f o :=
  fbit_writeBits order pos value width width f o h

/-- `readBits` looks only at the bits of its own field. -/
theorem readBits_congr (order : FieldOrder) (pos width n : Nat) (f g : Frame)
    (h : ∀ o, pos ≤ o → o < pos + n → fbit f o = fbit g o) :
    readBits order pos width f n = readBits order pos width g n := by
  induction n with
  | zero => rfl
  | succ n ih =>
    simp only [readBits]
    rw [ih (fun o h1 h2 => h o h1 (by omega)), h (pos + n) (by omega) (by omega)]

/-- `readField` looks only at the bits of its own field. -/
theorem readField_congr (order : FieldOrder) (pos width : Nat) (f g : Frame)
    (h : ∀ o, pos ≤ o → o < pos + width → fbit f o = fbit g o) :
    readField order pos width f = readField order pos width g :=
  readBits_congr order pos width width f g h

/-! ### A list of fields -/

/-- A write lies inside the buffer. -/
def FieldWrite.inBuffer (w : FieldWrite) : Prop := w.pos + w.width ≤ 120

/-- Two writes share no offset (42_command_encoders.md R85). -/
def FieldWrite.apart (v w : FieldWrite) : Prop := v.pos + v.width ≤ w.pos ∨ w.pos + w.width ≤ v.pos

/-- A bit outside every field of a list stays as it was. -/
theorem fbit_writeFields_outside (order : FieldOrder) (ws : List FieldWrite) (f : Frame) (o : Nat)
    (hin : ∀ w ∈ ws, w.inBuffer) (hout : ∀ w ∈ ws, o < w.pos ∨ w.pos + w.width ≤ o) :
    fbit (writeFields order ws f) o = fbit f o := by
  induction ws generalizing f with
  | nil => rfl
  | cons w ws ih =>
    have hw := hout w (by simp)
    rw [writeFields, List.foldl_cons, ← writeFields, ih _ (fun v hv => hin v (by simp [hv])) (fun v hv => hout v (by simp [hv])),
      fbit_writeField _ _ _ _ _ _ (hin w (by simp))]
    simp; omega

/-- A bit inside one field of a list of fields that share no offset comes from that field's value. -/
theorem fbit_writeFields_inside (order : FieldOrder) (ws : List FieldWrite) (f : Frame) (w : FieldWrite) (o : Nat)
    (hin : ∀ v ∈ ws, v.inBuffer) (hap : ws.Pairwise FieldWrite.apart) (hw : w ∈ ws)
    (h1 : w.pos ≤ o) (h2 : o < w.pos + w.width) :
    fbit (writeFields order ws f) o = valueBit order w.value w.width (o - w.pos) := by
  induction ws generalizing f with
  | nil => cases hw
  | cons v ws ih =>
    rw [writeFields, List.foldl_cons, ← writeFields]
    rw [List.pairwise_cons] at hap
    rcases List.mem_cons.1 hw with rfl | hw
    · rw [fbit_writeFields_outside _ _ _ _ (fun u hu => hin u (by simp [hu]))
        (fun u hu => by have := hap.1 u hu; unfold FieldWrite.apart at this; omega),
        fbit_writeField _ _ _ _ _ _ (hin w (by simp))]
      simp [h1, h2]
    · exact ih _ (fun u hu => hin u (by simp [hu])) hap.2 hw

end Sys2Proof.Machine
end

