-- ==== Sys2Proof/Laws/PerInstr.lean ====
section
/-! SUPPORT. Lemmas made per instruction: the OP field of each command's word (30_encoding.md R47). -/

namespace Sys2Proof.Laws.OpField

/-- Bits 31..28 of a well-formed command's word are its opcode (30_encoding.md R46, R47). -/
def Statement (i : Instr) : Prop :=
  i.wellFormed = true → field (encode i) 31 28 = i.opcode

/-- The OP field of a command whose operands fit below it. -/
theorem of_operands {i : Instr} (h : i.operands < 2 ^ 28) : field (encode i) 31 28 = i.opcode := by
  have h2 : i.opcode < 16 := by cases i <;> simp [Instr.opcode]
  have h3 := toNat_encode i h
  unfold field
  omega

theorem nop : Statement .nop := fun _ => of_operands (by decide)

theorem wrfield (pos width value : Nat) : Statement (.wrfield pos width value) := fun h => of_operands (by
  simp only [Instr.wellFormed, Bool.and_eq_true, decide_eq_true_eq] at h
  simp only [Instr.operands]
  omega)

theorem ldtpl (tpl : Template) : Statement (.ldtpl tpl) := fun _ => of_operands (by cases tpl <;> decide)

theorem clear (len : Nat) : Statement (.clear len) := fun h => of_operands (by
  simp only [Instr.wellFormed, decide_eq_true_eq] at h
  simp only [Instr.operands]
  omega)

theorem xmit (trail : Bool) : Statement (.xmit trail) := fun _ => of_operands (by cases trail <;> decide)

theorem zone (z m : Nat) : Statement (.zone z m) := fun h => of_operands (by
  simp only [Instr.wellFormed, Bool.and_eq_true, decide_eq_true_eq] at h
  simp only [Instr.operands]
  omega)

theorem prog (p : Nat) : Statement (.prog p) := fun h => of_operands (by
  simp only [Instr.wellFormed, decide_eq_true_eq] at h
  simp only [Instr.operands]
  omega)

end Sys2Proof.Laws.OpField
end

