-- ==== Sys2Proof/Laws/State.lean ====
section
/-! SUPPORT. What each named update of the state does to each field, and the small facts of `mapNext` and of the
command checks. -/

namespace Sys2Proof.Machine

/-! ### raise -/

@[simp] theorem raise_frame (e : ErrorCause) (s : State) : (raise e s).frame = s.frame := by cases e <;> rfl
@[simp] theorem raise_flen (e : ErrorCause) (s : State) : (raise e s).flen = s.flen := by cases e <;> rfl
@[simp] theorem raise_trail (e : ErrorCause) (s : State) : (raise e s).trail = s.trail := by cases e <;> rfl
@[simp] theorem raise_phase (e : ErrorCause) (s : State) : (raise e s).phase = s.phase := by cases e <;> rfl
@[simp] theorem raise_pidx (e : ErrorCause) (s : State) : (raise e s).pidx = s.pidx := by cases e <;> rfl
@[simp] theorem raise_ucnt (e : ErrorCause) (s : State) : (raise e s).ucnt = s.ucnt := by cases e <;> rfl
@[simp] theorem raise_presc (e : ErrorCause) (s : State) : (raise e s).presc = s.presc := by cases e <;> rfl
@[simp] theorem raise_line (e : ErrorCause) (s : State) : (raise e s).line = s.line := by cases e <;> rfl
@[simp] theorem raise_rst (e : ErrorCause) (s : State) : (raise e s).rst = s.rst := by cases e <;> rfl
@[simp] theorem raise_rdata (e : ErrorCause) (s : State) : (raise e s).rdata = s.rdata := by cases e <;> rfl
@[simp] theorem raise_events (e : ErrorCause) (s : State) : (raise e s).events = s.events := by cases e <;> rfl
@[simp] theorem raise_cfg (e : ErrorCause) (s : State) : (raise e s).cfg = s.cfg := by cases e <;> rfl

/-! ### clearFlags -/

@[simp] theorem clearFlags_frame (v : Word) (s : State) : (clearFlags v s).frame = s.frame := rfl
@[simp] theorem clearFlags_flen (v : Word) (s : State) : (clearFlags v s).flen = s.flen := rfl
@[simp] theorem clearFlags_trail (v : Word) (s : State) : (clearFlags v s).trail = s.trail := rfl
@[simp] theorem clearFlags_phase (v : Word) (s : State) : (clearFlags v s).phase = s.phase := rfl
@[simp] theorem clearFlags_pidx (v : Word) (s : State) : (clearFlags v s).pidx = s.pidx := rfl
@[simp] theorem clearFlags_ucnt (v : Word) (s : State) : (clearFlags v s).ucnt = s.ucnt := rfl
@[simp] theorem clearFlags_presc (v : Word) (s : State) : (clearFlags v s).presc = s.presc := rfl
@[simp] theorem clearFlags_line (v : Word) (s : State) : (clearFlags v s).line = s.line := rfl
@[simp] theorem clearFlags_ipe (v : Word) (s : State) : (clearFlags v s).ipe = (s.ipe && !v.getLsbD 16) := rfl
@[simp] theorem clearFlags_ilc (v : Word) (s : State) : (clearFlags v s).ilc = (s.ilc && !v.getLsbD 17) := rfl
@[simp] theorem clearFlags_ovr (v : Word) (s : State) : (clearFlags v s).ovr = (s.ovr && !v.getLsbD 18) := rfl
@[simp] theorem clearFlags_rst (v : Word) (s : State) : (clearFlags v s).rst = s.rst := rfl
@[simp] theorem clearFlags_rdata (v : Word) (s : State) : (clearFlags v s).rdata = s.rdata := rfl
@[simp] theorem clearFlags_err (v : Word) (s : State) : (clearFlags v s).err = s.err := rfl
@[simp] theorem clearFlags_events (v : Word) (s : State) : (clearFlags v s).events = s.events := rfl
@[simp] theorem clearFlags_cfg (v : Word) (s : State) : (clearFlags v s).cfg = s.cfg := rfl

/-! ### loadFrame -/

@[simp] theorem loadFrame_frame (f : Frame) (n : Nat) (s : State) : (loadFrame f n s).frame = f := rfl
@[simp] theorem loadFrame_flen (f : Frame) (n : Nat) (s : State) : (loadFrame f n s).flen = BitVec.ofNat 4 n := rfl
@[simp] theorem loadFrame_trail (f : Frame) (n : Nat) (s : State) : (loadFrame f n s).trail = s.trail := rfl
@[simp] theorem loadFrame_phase (f : Frame) (n : Nat) (s : State) : (loadFrame f n s).phase = s.phase := rfl
@[simp] theorem loadFrame_pidx (f : Frame) (n : Nat) (s : State) : (loadFrame f n s).pidx = s.pidx := rfl
@[simp] theorem loadFrame_ucnt (f : Frame) (n : Nat) (s : State) : (loadFrame f n s).ucnt = s.ucnt := rfl
@[simp] theorem loadFrame_presc (f : Frame) (n : Nat) (s : State) : (loadFrame f n s).presc = s.presc := rfl
@[simp] theorem loadFrame_line (f : Frame) (n : Nat) (s : State) : (loadFrame f n s).line = s.line := rfl
@[simp] theorem loadFrame_ipe (f : Frame) (n : Nat) (s : State) : (loadFrame f n s).ipe = s.ipe := rfl
@[simp] theorem loadFrame_ilc (f : Frame) (n : Nat) (s : State) : (loadFrame f n s).ilc = s.ilc := rfl
@[simp] theorem loadFrame_ovr (f : Frame) (n : Nat) (s : State) : (loadFrame f n s).ovr = s.ovr := rfl
@[simp] theorem loadFrame_rst (f : Frame) (n : Nat) (s : State) : (loadFrame f n s).rst = s.rst := rfl
@[simp] theorem loadFrame_rdata (f : Frame) (n : Nat) (s : State) : (loadFrame f n s).rdata = s.rdata := rfl
@[simp] theorem loadFrame_err (f : Frame) (n : Nat) (s : State) : (loadFrame f n s).err = s.err := rfl
@[simp] theorem loadFrame_events (f : Frame) (n : Nat) (s : State) : (loadFrame f n s).events = s.events := rfl
@[simp] theorem loadFrame_cfg (f : Frame) (n : Nat) (s : State) : (loadFrame f n s).cfg = s.cfg := rfl

/-! ### startTx -/

@[simp] theorem startTx_frame (t : Bool) (s : State) : (startTx t s).frame = s.frame := rfl
@[simp] theorem startTx_flen (t : Bool) (s : State) : (startTx t s).flen = s.flen := rfl
@[simp] theorem startTx_trail (t : Bool) (s : State) : (startTx t s).trail = t := rfl
@[simp] theorem startTx_phase (t : Bool) (s : State) : (startTx t s).phase = .resetH := rfl
@[simp] theorem startTx_pidx (t : Bool) (s : State) : (startTx t s).pidx = 0 := rfl
@[simp] theorem startTx_ucnt (t : Bool) (s : State) : (startTx t s).ucnt = s.cfg.tResetH := rfl
@[simp] theorem startTx_presc (t : Bool) (s : State) : (startTx t s).presc = 0 := rfl
@[simp] theorem startTx_line (t : Bool) (s : State) : (startTx t s).line = true := rfl
@[simp] theorem startTx_ipe (t : Bool) (s : State) : (startTx t s).ipe = s.ipe := rfl
@[simp] theorem startTx_ilc (t : Bool) (s : State) : (startTx t s).ilc = s.ilc := rfl
@[simp] theorem startTx_ovr (t : Bool) (s : State) : (startTx t s).ovr = s.ovr := rfl
@[simp] theorem startTx_rst (t : Bool) (s : State) : (startTx t s).rst = s.rst := rfl
@[simp] theorem startTx_rdata (t : Bool) (s : State) : (startTx t s).rdata = s.rdata := rfl
@[simp] theorem startTx_err (t : Bool) (s : State) : (startTx t s).err = s.err := rfl
@[simp] theorem startTx_events (t : Bool) (s : State) : (startTx t s).events = s.events := rfl
@[simp] theorem startTx_cfg (t : Bool) (s : State) : (startTx t s).cfg = s.cfg := rfl

/-! ### assertReset -/

@[simp] theorem assertReset_frame (s : State) : (assertReset s).frame = zeroFrame := rfl
@[simp] theorem assertReset_flen (s : State) : (assertReset s).flen = 15 := rfl
@[simp] theorem assertReset_trail (s : State) : (assertReset s).trail = false := rfl
@[simp] theorem assertReset_phase (s : State) : (assertReset s).phase = .idle := rfl
@[simp] theorem assertReset_pidx (s : State) : (assertReset s).pidx = 0 := rfl
@[simp] theorem assertReset_ucnt (s : State) : (assertReset s).ucnt = 0 := rfl
@[simp] theorem assertReset_presc (s : State) : (assertReset s).presc = 0 := rfl
@[simp] theorem assertReset_line (s : State) : (assertReset s).line = false := rfl
@[simp] theorem assertReset_ipe (s : State) : (assertReset s).ipe = false := rfl
@[simp] theorem assertReset_ilc (s : State) : (assertReset s).ilc = false := rfl
@[simp] theorem assertReset_ovr (s : State) : (assertReset s).ovr = false := rfl
@[simp] theorem assertReset_rst (s : State) : (assertReset s).rst = true := rfl
@[simp] theorem assertReset_rdata (s : State) : (assertReset s).rdata = some 0 := rfl
@[simp] theorem assertReset_err (s : State) : (assertReset s).err = false := rfl
@[simp] theorem assertReset_events (s : State) : (assertReset s).events = s.events := rfl
@[simp] theorem assertReset_cfg (s : State) : (assertReset s).cfg = s.cfg := rfl

/-! ### respond -/

@[simp] theorem respond_frame (d : Option Word) (s : State) : (respond d s).frame = s.frame := rfl
@[simp] theorem respond_flen (d : Option Word) (s : State) : (respond d s).flen = s.flen := rfl
@[simp] theorem respond_trail (d : Option Word) (s : State) : (respond d s).trail = s.trail := rfl
@[simp] theorem respond_phase (d : Option Word) (s : State) : (respond d s).phase = s.phase := rfl
@[simp] theorem respond_pidx (d : Option Word) (s : State) : (respond d s).pidx = s.pidx := rfl
@[simp] theorem respond_ucnt (d : Option Word) (s : State) : (respond d s).ucnt = s.ucnt := rfl
@[simp] theorem respond_presc (d : Option Word) (s : State) : (respond d s).presc = s.presc := rfl
@[simp] theorem respond_line (d : Option Word) (s : State) : (respond d s).line = s.line := rfl
@[simp] theorem respond_ipe (d : Option Word) (s : State) : (respond d s).ipe = s.ipe := rfl
@[simp] theorem respond_ilc (d : Option Word) (s : State) : (respond d s).ilc = s.ilc := rfl
@[simp] theorem respond_ovr (d : Option Word) (s : State) : (respond d s).ovr = s.ovr := rfl
@[simp] theorem respond_rst (d : Option Word) (s : State) : (respond d s).rst = s.rst := rfl
@[simp] theorem respond_rdata (d : Option Word) (s : State) : (respond d s).rdata = d := rfl
@[simp] theorem respond_err (d : Option Word) (s : State) : (respond d s).err = false := rfl
@[simp] theorem respond_events (d : Option Word) (s : State) : (respond d s).events = s.events := rfl
@[simp] theorem respond_cfg (d : Option Word) (s : State) : (respond d s).cfg = s.cfg := rfl

@[simp] theorem raise_ipe_eq (s : State) : raise .ipe s = { s with ipe := true } := rfl
@[simp] theorem raise_ilc_eq (s : State) : raise .ilc s = { s with ilc := true } := rfl
@[simp] theorem raise_ovr_eq (s : State) : raise .ovr s = { s with ovr := true } := rfl
@[simp] theorem raise_busErr_eq (s : State) : raise .busErr s = { s with err := true } := rfl

/-! ### mergeEdge -/

/-- In a busy block the sequencer's five elements come from the sequencer, the rest from the access. -/
theorem mergeEdge_of_busy {s : State} (q a : State) (h : s.busy = true) :
    mergeEdge s q a =
      { a with phase := q.phase, pidx := q.pidx, ucnt := q.ucnt, presc := q.presc, line := q.line } := by
  simp [mergeEdge, h]

/-- In an idle block the access alone acts. -/
theorem mergeEdge_of_idle {s : State} (q a : State) (h : s.busy = false) : mergeEdge s q a = a := by
  simp [mergeEdge, h]

/-! ### BUSY -/

/-- BUSY says that PHASE is not IDLE (10_state.md R21). -/
theorem busy_eq_true_iff (s : State) : s.busy = true ↔ s.phase ≠ .idle := by
  simp [State.busy]

/-- Not BUSY says that PHASE is IDLE (10_state.md R21). -/
theorem busy_eq_false_iff (s : State) : s.busy = false ↔ s.phase = .idle := by
  simp [State.busy]

/-! ### The checks of a command -/

@[simp] theorem mapNext_next (g : State → State) (s : State) : mapNext g (.next s) = .next (g s) := rfl
@[simp] theorem mapNext_fault (g : State → State) (r : Fault) : mapNext g (.fault r) = .fault r := rfl
@[simp] theorem mapNext_refused (g : State → State) (r : Refusal) : mapNext g (.refused r) = .refused r := rfl

/-- What a mapped result's next state can be. -/
theorem mapNext_eq_next {g : State → State} {r : Result} {t : State} (h : mapNext g r = .next t) :
    ∃ u, r = .next u ∧ t = g u := by
  cases r with
  | next u => exact ⟨u, rfl, (Host.Outcome.next.inj h).symm⟩
  | fault _ => cases h
  | refused _ => cases h

theorem whenIdle_of_busy {s : State} (run : State → Result) (h : s.busy = true) :
    whenIdle s run = .next { s with ovr := true } := by
  simp [whenIdle, h]

theorem whenIdle_of_idle {s : State} (run : State → Result) (h : s.busy = false) : whenIdle s run = run s := by
  simp [whenIdle, h]

theorem checked_of_legal {b : Bool} {s : State} (run : State → Result) (h : b = true) :
    checked b s run = run s := by
  simp [checked, h]

theorem checked_of_illegal {b : Bool} {s : State} (run : State → Result) (h : b = false) :
    checked b s run = .next { s with ipe := true } := by
  simp [checked, h]

end Sys2Proof.Machine
end

