-- ==== Sys2Proof/Laws/Sequencer.lean ====
section
/-! SUPPORT. What the sequencer can do in one clock edge, said once: which elements it may write, that it has a next
state in every legal state, and that it keeps the legal values. -/

namespace Sys2Proof.Machine

/-! ### Parameters and pulses -/

theorem clkDiv_pos {c : Config} (h : ConfigLegal c) : 0 < clkDiv c := by
  have h1 := h.clk_pos
  have h2 := h.clk_mul
  unfold clkDiv
  omega

theorem highTime_ne_zero {c : Config} (h : ConfigLegal c) (b : Bool) : highTime c b ≠ 0 := by
  cases b
  · exact h.short_pos
  · exact h.long_pos

theorem lowTime_ne_zero {c : Config} (h : ConfigLegal c) (b : Bool) : lowTime c b ≠ 0 := by
  cases b
  · exact h.long_pos
  · exact h.short_pos

theorem ticks_pos {d : Ticks} (h : d ≠ 0) : 1 ≤ d.toNat := by
  have : d.toNat ≠ 0 := fun h0 => h (BitVec.eq_of_toNat_eq (by simpa using h0))
  omega

/-- Every pulse below NP has a bit (41_transmitter.md R69). -/
theorem txBit_eq_some {f : Frame} {n k : Nat} {trail : Bool} (h : k < pulseCount n trail) :
    ∃ b, txBit f n trail k = some b := by
  unfold txBit
  split
  · exact ⟨_, rfl⟩
  · split
    · exact ⟨_, rfl⟩
    · split
      · exact ⟨_, rfl⟩
      · unfold pulseCount at *
        cases trail <;> simp_all <;> omega

/-- No pulse at or above NP has a bit (41_transmitter.md R69). -/
theorem txBit_eq_none {f : Frame} {n k : Nat} {trail : Bool} (h : pulseCount n trail ≤ k) :
    txBit f n trail k = none := by
  unfold txBit
  unfold pulseCount at *
  cases trail <;> simp at * <;> rw [if_neg (by omega)]
  · rw [if_neg (by omega)]
  · rw [if_neg (by omega), if_neg (by omega)]

theorem State.tx_eq_some {s : State} {k : Nat} (h : k < s.np) : ∃ b, s.tx k = some b :=
  txBit_eq_some h

theorem State.np_pos (s : State) : 0 < s.np := by
  simp [State.np, pulseCount]

/-- NP is at most 8*15 + 2 = 122 (10_state.md R17). -/
theorem State.np_le (s : State) : s.np ≤ 122 := by
  have h1 := s.flen.isLt
  have h2 : s.trail.toNat ≤ 1 := Bool.toNat_le s.trail
  simp only [State.np, pulseCount]
  omega

/-! ### What the sequencer may write -/

/-- `t` differs from `s` at most in the five elements the sequencer writes: PHASE, PIDX, UCNT, PRESC and LINE
(41_transmitter.md R72, R75). -/
structure SequencerOnly (s t : State) : Prop where
  frame : t.frame = s.frame
  flen : t.flen = s.flen
  trail : t.trail = s.trail
  ipe : t.ipe = s.ipe
  ilc : t.ilc = s.ilc
  ovr : t.ovr = s.ovr
  rst : t.rst = s.rst
  rdata : t.rdata = s.rdata
  err : t.err = s.err
  events : t.events = s.events
  cfg : t.cfg = s.cfg

theorem SequencerOnly.refl (s : State) : SequencerOnly s s :=
  ⟨rfl, rfl, rfl, rfl, rfl, rfl, rfl, rfl, rfl, rfl, rfl⟩

theorem beginPulse_eq_next {k : Nat} {s t : State} (h : beginPulse k s = .next t) :
    ∃ b, s.tx k = some b ∧
      t = { s with phase := .bitH, line := true, pidx := BitVec.ofNat 8 k, ucnt := highTime s.cfg b } := by
  unfold beginPulse at h
  split at h
  · rename_i b hb; exact ⟨b, hb, (Host.Outcome.next.inj h).symm⟩
  · cases h

theorem beginLow_eq_next {s t : State} (h : beginLow s = .next t) :
    ∃ b, s.tx s.pidx.toNat = some b ∧
      t = { s with phase := .bitL, line := false, ucnt := lowTime s.cfg b } := by
  unfold beginLow at h
  split at h
  · rename_i b hb; exact ⟨b, hb, (Host.Outcome.next.inj h).symm⟩
  · cases h

theorem advance_sequencerOnly {s t : State} (h : advance s = .next t) : SequencerOnly s t := by
  unfold advance at h
  split at h
  · cases h; constructor <;> rfl
  · cases h; constructor <;> rfl
  · cases h; constructor <;> rfl
  · cases h; constructor <;> rfl
  · obtain ⟨b, -, rfl⟩ := beginPulse_eq_next h; constructor <;> rfl
  · obtain ⟨b, -, rfl⟩ := beginLow_eq_next h; constructor <;> rfl
  · split at h
    · cases h; constructor <;> rfl
    · obtain ⟨b, -, rfl⟩ := beginPulse_eq_next h; constructor <;> rfl

theorem tickEnd_sequencerOnly {s t : State} (h : tickEnd s = .next t) : SequencerOnly s t := by
  unfold tickEnd at h
  split at h
  · cases h; constructor <;> rfl
  · exact advance_sequencerOnly h

/-- The sequencer's edge writes at most its five elements (41_transmitter.md R73). -/
theorem sequencerEdge_sequencerOnly {s q : State} (h : sequencerEdge s = .next q) : SequencerOnly s q := by
  unfold sequencerEdge at h
  split at h
  · split at h
    · have h' := tickEnd_sequencerOnly h
      exact ⟨h'.frame, h'.flen, h'.trail, h'.ipe, h'.ilc, h'.ovr, h'.rst, h'.rdata, h'.err, h'.events, h'.cfg⟩
    · cases h; constructor <;> rfl
  · cases h; constructor <;> rfl

theorem sequencerEdge_of_idle {s : State} (h : s.busy = false) : sequencerEdge s = .next s := by
  simp [sequencerEdge, h]

/-! ### Legal states -/

/-- The sequencer's own part of the invariant: what `State.Inv` says apart from `rst`. -/
structure State.Legal (s : State) : Prop where
  cfg_legal : ConfigLegal s.cfg
  flen_pos : s.flen ≠ 0
  line_level : s.line = s.phase.level
  presc_lt : s.presc < clkDiv s.cfg
  pidx_zero : s.phase.inPulse = false → s.pidx = 0
  pidx_lt : s.pidx.toNat < s.np
  idle_zero : s.phase = .idle → s.ucnt = 0 ∧ s.presc = 0
  ucnt_range : s.phase ≠ .idle → 1 ≤ s.ucnt.toNat ∧ s.ucnt.toNat ≤ s.segmentTicks

theorem State.Inv.legal {s : State} (h : s.Inv) : s.Legal :=
  ⟨h.cfg_legal, h.flen_pos, h.line_level, h.presc_lt, h.pidx_zero, h.pidx_lt, h.idle_zero, h.ucnt_range⟩

theorem State.Legal.inv {s : State} (h : s.Legal) (hr : s.rst = false) : s.Inv :=
  ⟨h.cfg_legal, h.flen_pos, h.line_level, h.presc_lt, h.pidx_zero, h.pidx_lt, h.idle_zero, h.ucnt_range,
    fun h' => by rw [hr] at h'; cases h'⟩

/-- `State.Legal` looks only at the parameters and the transmission's elements. -/
theorem State.Legal.congr {s t : State} (h : s.Legal) (h1 : t.cfg = s.cfg) (h2 : t.frame = s.frame)
    (h3 : t.flen = s.flen) (h4 : t.trail = s.trail) (h5 : t.phase = s.phase) (h6 : t.pidx = s.pidx)
    (h7 : t.ucnt = s.ucnt) (h8 : t.presc = s.presc) (h9 : t.line = s.line) : t.Legal := by
  obtain ⟨a1, a2, a3, a4, a5, a6, a7, a8⟩ := h
  constructor <;> simp_all [State.np, State.segmentTicks, State.tx]

/-- `State.Legal` of an idle state does not look at the frame's bytes or TRAIL. -/
theorem State.Legal.of_idle {s : State} (hc : ConfigLegal s.cfg) (hf : s.flen ≠ 0) (hl : s.line = false)
    (hp : s.phase = .idle) (h0 : s.pidx = 0) (hu : s.ucnt = 0) (hpr : s.presc = 0) : s.Legal where
  cfg_legal := hc
  flen_pos := hf
  line_level := by rw [hl, hp]; rfl
  presc_lt := by rw [hpr]; exact clkDiv_pos hc
  pidx_zero _ := h0
  pidx_lt := by rw [h0]; exact s.np_pos
  idle_zero _ := ⟨hu, hpr⟩
  ucnt_range h := absurd hp h

theorem startTx_legal {s : State} (t : Bool) (hc : ConfigLegal s.cfg) (hf : s.flen ≠ 0) : (startTx t s).Legal where
  cfg_legal := hc
  flen_pos := hf
  line_level := rfl
  presc_lt := clkDiv_pos hc
  pidx_zero _ := rfl
  pidx_lt := State.np_pos _
  idle_zero h := by cases h
  ucnt_range _ := ⟨ticks_pos hc.resetH_pos, le_refl _⟩

theorem beginPulse_legal {k : Nat} {s : State} (h : s.Legal) (hk : k < s.np) :
    ∃ t, beginPulse k s = .next t ∧ t.Legal := by
  obtain ⟨b, hb⟩ := s.tx_eq_some hk
  refine ⟨_, by unfold beginPulse; rw [hb], ?_⟩
  have hk8 : (BitVec.ofNat 8 k).toNat = k := by
    have := s.np_le
    simp; omega
  refine ⟨h.cfg_legal, h.flen_pos, rfl, h.presc_lt, ?_, ?_, ?_, ?_⟩
  · intro h'; cases h'
  · simp only [hk8]; exact hk
  · intro h'; cases h'
  · intro _
    refine ⟨ticks_pos (highTime_ne_zero h.cfg_legal b), le_of_eq ?_⟩
    simp only [State.segmentTicks, hk8]
    change (highTime s.cfg b).toNat = (highTime s.cfg ((s.tx k).getD false)).toNat
    rw [hb]; rfl

theorem beginLow_legal {s : State} (h : s.Legal) : ∃ t, beginLow s = .next t ∧ t.Legal := by
  obtain ⟨b, hb⟩ := s.tx_eq_some h.pidx_lt
  refine ⟨_, by unfold beginLow; rw [hb], ?_⟩
  refine ⟨h.cfg_legal, h.flen_pos, rfl, h.presc_lt, ?_, h.pidx_lt, ?_, ?_⟩
  · intro h'; cases h'
  · intro h'; cases h'
  · intro _
    refine ⟨ticks_pos (lowTime_ne_zero h.cfg_legal b), le_of_eq ?_⟩
    change (lowTime s.cfg b).toNat = (lowTime s.cfg ((s.tx s.pidx.toNat).getD false)).toNat
    rw [hb]; rfl

/-- From a prologue segment to the next segment of the prologue. -/
theorem prologue_legal {s : State} (h : s.Legal) (hb : s.phase.inPulse = false) (p : Phase) (d : Ticks) (hd : d ≠ 0)
    (hp : p = .resetL ∧ d = s.cfg.tResetL ∨ p = .startH ∧ d = s.cfg.tStartH ∨ p = .startL ∧ d = s.cfg.tStartL) :
    ({ s with phase := p, line := p.level, ucnt := d } : State).Legal := by
  have h0 := h.pidx_zero hb
  refine ⟨h.cfg_legal, h.flen_pos, rfl, h.presc_lt, fun _ => h0, h.pidx_lt, ?_, ?_⟩
  · rcases hp with ⟨rfl, -⟩ | ⟨rfl, -⟩ | ⟨rfl, -⟩ <;> (intro h'; cases h')
  · intro _
    refine ⟨ticks_pos hd, le_of_eq ?_⟩
    rcases hp with ⟨rfl, rfl⟩ | ⟨rfl, rfl⟩ | ⟨rfl, rfl⟩ <;> rfl

/-- `Advance()` has a legal next state in every legal state with PRESC = 0 (60_exceptions.md R101). -/
theorem advance_legal {s : State} (h : s.Legal) (h0 : s.presc = 0) : ∃ t, advance s = .next t ∧ t.Legal := by
  unfold advance
  split
  · exact ⟨_, rfl, h⟩
  · rename_i hp
    exact ⟨_, rfl, prologue_legal h (by rw [hp]; rfl) .resetL _ h.cfg_legal.resetL_pos (.inl ⟨rfl, rfl⟩)⟩
  · rename_i hp
    exact ⟨_, rfl, prologue_legal h (by rw [hp]; rfl) .startH _ h.cfg_legal.startH_pos (.inr (.inl ⟨rfl, rfl⟩))⟩
  · rename_i hp
    exact ⟨_, rfl, prologue_legal h (by rw [hp]; rfl) .startL _ h.cfg_legal.startL_pos (.inr (.inr ⟨rfl, rfl⟩))⟩
  · exact beginPulse_legal h s.np_pos
  · exact beginLow_legal h
  · split
    · exact ⟨_, rfl, State.Legal.of_idle h.cfg_legal h.flen_pos rfl rfl rfl rfl h0⟩
    · rename_i hne
      have := h.pidx_lt
      exact beginPulse_legal h (by omega)

/-- `TickEnd()` has a legal next state in every legal busy state with PRESC = 0 (60_exceptions.md R101). -/
theorem tickEnd_legal {s : State} (h : s.Legal) (h0 : s.presc = 0) (hp : s.phase ≠ .idle) :
    ∃ t, tickEnd s = .next t ∧ t.Legal := by
  unfold tickEnd
  split
  · rename_i hu
    refine ⟨_, rfl, h.cfg_legal, h.flen_pos, h.line_level, h.presc_lt, h.pidx_zero, h.pidx_lt,
      fun h' => absurd h' hp, fun _ => ?_⟩
    have hr := h.ucnt_range hp
    have hs : (s.ucnt - 1).toNat = s.ucnt.toNat - 1 := by
      have := s.ucnt.isLt
      rw [BitVec.toNat_sub]; simp; omega
    change 1 ≤ (s.ucnt - 1).toNat ∧ (s.ucnt - 1).toNat ≤ s.segmentTicks
    omega
  · exact advance_legal h h0

/-- The sequencer's edge has a legal next state in every legal state (60_exceptions.md R101). -/
theorem sequencerEdge_legal {s : State} (h : s.Legal) : ∃ q, sequencerEdge s = .next q ∧ q.Legal := by
  by_cases hb : s.busy = true
  · have hp := (busy_eq_true_iff s).1 hb
    unfold sequencerEdge
    rw [if_pos hb]
    split
    · exact tickEnd_legal (s := { s with presc := 0 })
        ⟨h.cfg_legal, h.flen_pos, h.line_level, clkDiv_pos h.cfg_legal, h.pidx_zero, h.pidx_lt,
          fun h' => absurd h' hp, h.ucnt_range⟩ rfl hp
    · rename_i hd
      have := h.presc_lt
      exact ⟨_, rfl, h.cfg_legal, h.flen_pos, h.line_level, by change s.presc + 1 < clkDiv s.cfg; omega, h.pidx_zero,
        h.pidx_lt, fun h' => absurd h' hp, h.ucnt_range⟩
  · exact ⟨s, sequencerEdge_of_idle (by simpa using hb), h⟩

end Sys2Proof.Machine
end

