-- ==== Sys2Proof/Laws/Port.lean ====
section
/-! SUPPORT. What a command, a register access, a clock edge and a step can do, said once each. -/

namespace Sys2Proof.Machine

/-! ### A command in an idle block -/

/-- In an idle legal block a well-formed command has a legal next state, and leaves the parameters, the pins, the
port's answer and the coming events alone. -/
theorem exec_of_idle {i : Instr} {s : State} (hs : s.Legal) (hb : s.busy = false) (hi : i.wellFormed = true) :
    ∃ t, exec i s = .next t ∧ t.Legal ∧ t.rst = s.rst ∧ t.events = s.events ∧ t.cfg = s.cfg := by
  have hp := (busy_eq_false_iff s).1 hb
  have hl : s.line = false := by rw [hs.line_level, hp]; rfl
  have h0 : s.pidx = 0 := hs.pidx_zero (by rw [hp]; rfl)
  obtain ⟨hu, hpr⟩ := hs.idle_zero hp
  have hflag : ({ s with ipe := true } : State).Legal := hs.congr rfl rfl rfl rfl rfl rfl rfl rfl rfl
  cases i with
  | nop => exact ⟨s, whenIdle_of_idle _ hb, hs, rfl, rfl, rfl⟩
  | wrfield pos width value =>
    simp only [exec, execWrfield, whenIdle_of_idle _ hb]
    by_cases hc : fieldLegal pos width s.flen = true
    · rw [checked_of_legal _ hc]
      exact ⟨_, rfl, State.Legal.of_idle hs.cfg_legal hs.flen_pos hl hp h0 hu hpr, rfl, rfl, rfl⟩
    · rw [checked_of_illegal _ (Bool.eq_false_iff.2 hc)]
      exact ⟨_, rfl, hflag, rfl, rfl, rfl⟩
  | ldtpl tpl =>
    simp only [exec, execLdtpl, whenIdle_of_idle _ hb]
    refine ⟨_, rfl, State.Legal.of_idle hs.cfg_legal ?_ hl hp h0 hu hpr, rfl, rfl, rfl⟩
    cases tpl
    · change (15#4) ≠ 0; decide
    · change (7#4) ≠ 0; decide
  | clear len =>
    simp only [exec, execClear, whenIdle_of_idle _ hb]
    by_cases hc : lenLegal len = true
    · rw [checked_of_legal _ hc]
      refine ⟨_, rfl, State.Legal.of_idle hs.cfg_legal ?_ hl hp h0 hu hpr, rfl, rfl, rfl⟩
      have h1 : len < 16 := by simpa [Instr.wellFormed] using hi
      have h2 : len ≠ 0 := by simpa [lenLegal] using hc
      intro h3
      have h4 : (BitVec.ofNat 4 len).toNat = 0 := by
        change BitVec.ofNat 4 len = 0 at h3
        rw [h3]; rfl
      simp at h4; omega
    · rw [checked_of_illegal _ (Bool.eq_false_iff.2 hc)]
      exact ⟨_, rfl, hflag, rfl, rfl, rfl⟩
  | xmit trail =>
    simp only [exec, execXmit, whenIdle_of_idle _ hb]
    exact ⟨_, rfl, startTx_legal trail hs.cfg_legal hs.flen_pos, rfl, rfl, rfl⟩
  | zone z m =>
    simp only [exec, execZone, whenIdle_of_idle _ hb]
    by_cases hc : zoneLegal z m = true
    · rw [checked_of_legal _ hc]
      generalize zoneFrame s.cfg z m = f
      exact ⟨_, rfl, startTx_legal true hs.cfg_legal (by change (15#4) ≠ 0; decide), rfl, rfl, rfl⟩
    · rw [checked_of_illegal _ (Bool.eq_false_iff.2 hc)]
      exact ⟨_, rfl, hflag, rfl, rfl, rfl⟩
  | prog p =>
    simp only [exec, execProg, whenIdle_of_idle _ hb]
    by_cases hc : progLegal p = true
    · rw [checked_of_legal _ hc]
      generalize progFrame s.cfg p = f
      exact ⟨_, rfl, startTx_legal false hs.cfg_legal (by change (7#4) ≠ 0; decide), rfl, rfl, rfl⟩
    · rw [checked_of_illegal _ (Bool.eq_false_iff.2 hc)]
      exact ⟨_, rfl, hflag, rfl, rfl, rfl⟩

/-! ### An access -/

/-- In a busy block any access changes at most the flags and the port's answer, and never stops (20_memory.md R35,
R36, 43_control.md R91). -/
theorem portAccess_of_busy (p : PortPins) {s : State} (hb : s.busy = true) :
    ∃ a b c d e, portAccess p s = .next { s with ipe := a, ilc := b, ovr := c, rdata := d, err := e } := by
  unfold portAccess
  split
  · exact ⟨_, _, _, _, _, rfl⟩
  · split
    · exact ⟨_, _, _, _, _, rfl⟩
    · split
      · unfold memWrite
        split
        · refine ⟨s.ipe, s.ilc, true, none, false, ?_⟩
          simp [issueCommand, hb, respond]
        · exact ⟨_, _, _, _, _, rfl⟩
        · exact ⟨_, _, _, _, _, rfl⟩
        · refine ⟨s.ipe, s.ilc, true, none, false, ?_⟩
          simp [writeFrameByte, hb, respond]
        · exact ⟨_, _, _, _, _, rfl⟩
      · exact ⟨_, _, _, _, _, rfl⟩

/-- In an idle legal block any access has a legal next state, and leaves the parameters, `rst` and the coming events
alone. -/
theorem portAccess_of_idle (p : PortPins) {s : State} (hs : s.Legal) (hb : s.busy = false) :
    ∃ a, portAccess p s = .next a ∧ a.Legal ∧ a.rst = s.rst ∧ a.events = s.events ∧ a.cfg = s.cfg := by
  have hp := (busy_eq_false_iff s).1 hb
  unfold portAccess
  split
  · exact ⟨_, rfl, hs.congr rfl rfl rfl rfl rfl rfl rfl rfl rfl, rfl, rfl, rfl⟩
  · split
    · exact ⟨_, rfl, hs.congr rfl rfl rfl rfl rfl rfl rfl rfl rfl, rfl, rfl, rfl⟩
    · split
      · unfold memWrite
        split
        · unfold issueCommand
          rw [if_neg (by simp [hb])]
          split
          · exact ⟨_, rfl, hs.congr rfl rfl rfl rfl rfl rfl rfl rfl rfl, rfl, rfl, rfl⟩
          · rename_i i hi
            obtain ⟨t, ht, hl, h1, h2, h3⟩ := exec_of_idle hs hb (wellFormed_of_decode hi)
            exact ⟨respond none t, by rw [ht]; rfl, hl.congr rfl rfl rfl rfl rfl rfl rfl rfl rfl, h1, h2, h3⟩
        · exact ⟨_, rfl, hs.congr rfl rfl rfl rfl rfl rfl rfl rfl rfl, rfl, rfl, rfl⟩
        · exact ⟨_, rfl, hs.congr rfl rfl rfl rfl rfl rfl rfl rfl rfl, rfl, rfl, rfl⟩
        · refine ⟨_, rfl, ?_, ?_, ?_, ?_⟩
          · obtain ⟨hu, hpr⟩ := hs.idle_zero hp
            simp only [writeFrameByte, hb]
            exact State.Legal.of_idle hs.cfg_legal hs.flen_pos (by change s.line = false; rw [hs.line_level, hp]; rfl) hp
              (hs.pidx_zero (by rw [hp]; rfl)) hu hpr
          all_goals simp [writeFrameByte, hb, respond]
        · exact ⟨_, rfl, hs.congr rfl rfl rfl rfl rfl rfl rfl rfl rfl, rfl, rfl, rfl⟩
      · exact ⟨_, rfl, hs.congr rfl rfl rfl rfl rfl rfl rfl rfl rfl, rfl, rfl, rfl⟩

/-! ### An edge -/

/-- One running edge in a busy legal block: the sequencer's five elements from its own edge, and at most the flags and
the port's answer from the access (41_transmitter.md R73, R77). -/
theorem runningEdge_of_busy (p : PortPins) {s q : State} (hq : sequencerEdge s = .next q) (hb : s.busy = true) :
    ∃ a b c d e, runningEdge p s = .next { q with ipe := a, ilc := b, ovr := c, rdata := d, err := e } := by
  obtain ⟨a, b, c, d, e, ha⟩ := portAccess_of_busy p hb
  refine ⟨a, b, c, d, e, ?_⟩
  have h := sequencerEdge_sequencerOnly hq
  simp only [runningEdge, hq, ha, mapNext_next, mergeEdge_of_busy _ _ hb]
  rw [h.frame, h.flen, h.trail, h.rst, h.events, h.cfg]

/-- One running edge in an idle block is the access alone (41_transmitter.md R73). -/
theorem runningEdge_of_idle (p : PortPins) {s : State} (hb : s.busy = false) : runningEdge p s = portAccess p s := by
  simp only [runningEdge, sequencerEdge_of_idle hb]
  have h : mergeEdge s s = id := by
    funext a
    rw [mergeEdge_of_idle _ _ hb]; rfl
  rw [h]
  cases portAccess p s <;> rfl

/-- What merging an access with the sequencer's edge gives, if the access changed nothing but the flags, the frame of an
idle block, and the port's answer. -/
theorem mergeEdge_of_sequencerEdge {s q : State} (a : State) (hq : sequencerEdge s = .next q)
    (h1 : a.phase = s.phase) (h2 : a.pidx = s.pidx) (h3 : a.ucnt = s.ucnt) (h4 : a.presc = s.presc)
    (h5 : a.line = s.line) :
    mergeEdge s q a =
      { a with phase := q.phase, pidx := q.pidx, ucnt := q.ucnt, presc := q.presc, line := q.line } := by
  by_cases hb : s.busy = true
  · exact mergeEdge_of_busy q a hb
  · have hb : s.busy = false := by simpa using hb
    rw [mergeEdge_of_idle q a hb]
    rw [sequencerEdge_of_idle hb] at hq
    injection hq with hq
    subst hq
    rw [← h1, ← h2, ← h3, ← h4, ← h5]

/-- An edge whose access changed none of the sequencer's five elements: they come from the sequencer's edge, the rest
from the access. -/
theorem runningEdge_of_access {p : PortPins} {s q a : State} (hq : sequencerEdge s = .next q)
    (ha : portAccess p s = .next a) (h1 : a.phase = s.phase) (h2 : a.pidx = s.pidx) (h3 : a.ucnt = s.ucnt)
    (h4 : a.presc = s.presc) (h5 : a.line = s.line) :
    runningEdge p s =
      .next { a with phase := q.phase, pidx := q.pidx, ucnt := q.ucnt, presc := q.presc, line := q.line } := by
  simp only [runningEdge, hq, ha, mapNext_next, mergeEdge_of_sequencerEdge a hq h1 h2 h3 h4 h5]

/-- An edge whose access changed nothing but the port's answer: all the rest is what the sequencer's edge leaves. -/
theorem runningEdge_of_answer {p : PortPins} {s q : State} {d : Option Word} {e : Bool}
    (hq : sequencerEdge s = .next q) (ha : portAccess p s = .next { s with rdata := d, err := e }) :
    runningEdge p s = .next { q with rdata := d, err := e } := by
  have ho := sequencerEdge_sequencerOnly hq
  rw [runningEdge_of_access hq ha rfl rfl rfl rfl rfl]
  simp only [ho.frame, ho.flen, ho.trail, ho.ipe, ho.ilc, ho.ovr, ho.rst, ho.events, ho.cfg]

/-- A cycle without an access changes nothing but the port's answer (10_state.md R30). -/
theorem portAccess_unselected {p : PortPins} (s : State) (h : p.sel = false) :
    portAccess p s = .next { s with rdata := none, err := false } := by
  simp [portAccess, h, respond]

/-- A legal read's access. -/
theorem portAccess_read {p : PortPins} (s : State) (h1 : p.sel = true) (h2 : p.write = false)
    (h3 : accessLegal p = true) :
    portAccess p s = .next { s with rdata := some (memRead p.addr s), err := false } := by
  simp [portAccess, h1, h2, h3, respond]

/-- A legal write's access. -/
theorem portAccess_write {p : PortPins} (s : State) (h1 : p.sel = true) (h2 : p.write = true)
    (h3 : accessLegal p = true) :
    portAccess p s = mapNext (respond none) (memWrite p.addr p.wdata s) := by
  simp [portAccess, h1, h2, h3]

/-- A refused access. -/
theorem portAccess_refused {p : PortPins} (s : State) (h1 : p.sel = true) (h3 : accessLegal p = false) :
    portAccess p s = .next { s with rdata := if p.write then none else some 0, err := true } := by
  simp [portAccess, h1, h3, respond]

/-- One running edge in a legal state: a legal next state, with the parameters, `rst` and the coming events as they
were. -/
theorem runningEdge_legal (p : PortPins) {s : State} (hs : s.Legal) :
    ∃ t, runningEdge p s = .next t ∧ t.Legal ∧ t.rst = s.rst ∧ t.events = s.events ∧ t.cfg = s.cfg := by
  by_cases hb : s.busy = true
  · obtain ⟨q, hq, hl⟩ := sequencerEdge_legal hs
    obtain ⟨a, b, c, d, e, h⟩ := runningEdge_of_busy p hq hb
    have ho := sequencerEdge_sequencerOnly hq
    exact ⟨_, h, hl.congr rfl rfl rfl rfl rfl rfl rfl rfl rfl, ho.rst, ho.events, ho.cfg⟩
  · have hb : s.busy = false := by simpa using hb
    rw [runningEdge_of_idle p hb]
    exact portAccess_of_idle p hs hb

/-! ### A step -/

theorem step_of_edge {s : State} {p : PortPins} {rest : List Event} (h : s.events = .edge p :: rest) :
    step s = clockEdge p { s with events := rest } := by
  simp [step, h, nextEvent, handleEvent]

theorem step_of_no_event {s : State} (h : s.events = []) : step s = clockEdge idlePins s := by
  have hs : { s with events := [] } = s := by rw [← h]
  simp [step, h, nextEvent, handleEvent, hs]

theorem step_of_rst {s : State} {level : Bool} {rest : List Event} (h : s.events = .rst level :: rest) :
    step s = .next (setResetPin level { s with events := rest }) := by
  simp [step, h, nextEvent, handleEvent]

theorem clockEdge_of_running (p : PortPins) {s : State} (h : s.rst = false) : clockEdge p s = runningEdge p s := by
  simp [clockEdge, h]

theorem clockEdge_of_reset (p : PortPins) {s : State} (h : s.rst = true) :
    clockEdge p s = .next (assertReset s) := by
  simp [clockEdge, h]

/-- A clock edge in an idle block out of reset is its access alone. -/
theorem step_idle_edge {s : State} {p : PortPins} {rest : List Event} (h : s.events = .edge p :: rest)
    (hr : s.rst = false) (hb : s.busy = false) : step s = portAccess p { s with events := rest } := by
  rw [step_of_edge h, clockEdge_of_running p (s := { s with events := rest }) hr,
    runningEdge_of_idle p (s := { s with events := rest }) hb]

/-- A clock edge in a legal block out of reset, busy or not: the sequencer's edge and the access, merged. -/
theorem step_running_edge {s q : State} {p : PortPins} {rest : List Event} (h : s.events = .edge p :: rest)
    (hr : s.rst = false) (hq : sequencerEdge { s with events := rest } = .next q) :
    step s = mapNext (mergeEdge { s with events := rest } q) (portAccess p { s with events := rest }) := by
  rw [step_of_edge h, clockEdge_of_running p (s := { s with events := rest }) hr]
  simp only [runningEdge, hq]

end Sys2Proof.Machine
end

