-- ==== Sys2Proof/Tests/Slice0.lean ====
section
/-! SUPPORT. The model's own tests: ill-formed terms that WellFormed refuses, words written out from the encoding
tables, one step of each command with the values of spec/95_test_vectors.md, and for every statement with hypotheses
a state and operands that meet them. -/

namespace Sys2Proof.Tests

open Sys2Proof.Machine

/-! ### WellFormed refuses what has no encoding (30_encoding.md R60) -/

theorem test_refuses_pos_128 : (Instr.wrfield 128 1 0).wellFormed = false := by decide
theorem test_refuses_width_8 : (Instr.wrfield 0 8 0).wellFormed = false := by decide
theorem test_refuses_value_256 : (Instr.wrfield 0 1 256).wellFormed = false := by decide
theorem test_refuses_len_16 : (Instr.clear 16).wellFormed = false := by decide
theorem test_refuses_zone_256 : (Instr.zone 256 0).wellFormed = false := by decide
theorem test_refuses_minutes_256 : (Instr.zone 0 256).wellFormed = false := by decide
theorem test_refuses_program_256 : (Instr.prog 256).wellFormed = false := by decide

/-! ### Decoding, each word written out field by field from 30_encoding.md R48-R54 -/

theorem test_decode_nop : decode 0b00000000000000000000000000000000#32 = .ok .nop := by decide
theorem test_decode_wrfield :
    decode (0b0001#4 ++ 0b00000#5 ++ 0b1110001#7 ++ 0b00000#5 ++ 0b111#3 ++ 0b01111111#8) =
      .ok (.wrfield 113 7 0x7F) := by decide
theorem test_decode_ldtpl_zone : decode (0b0010#4 ++ 0#27 ++ 0b0#1) = .ok (.ldtpl .zone) := by decide
theorem test_decode_ldtpl_prog : decode (0b0010#4 ++ 0#27 ++ 0b1#1) = .ok (.ldtpl .program) := by decide
theorem test_decode_clear : decode (0b0011#4 ++ 0#24 ++ 0b0010#4) = .ok (.clear 2) := by decide
theorem test_decode_xmit : decode (0b0100#4 ++ 0#27 ++ 0b1#1) = .ok (.xmit true) := by decide
theorem test_decode_zone : decode (0b0101#4 ++ 0#12 ++ 0b00011110#8 ++ 0b00001101#8) = .ok (.zone 13 30) := by decide
theorem test_decode_prog : decode (0b0110#4 ++ 0#20 ++ 0b00000011#8) = .ok (.prog 3) := by decide
/-- Bit 16 reserved in a ZONE word (95_test_vectors.md 2.1). -/
theorem test_decode_zone_reserved : decode 0x50010000#32 = .error (.reservedBitSet 5) := by decide
/-- OP 7 reserved (95_test_vectors.md 2.1). -/
theorem test_decode_op7 : decode 0x70000000#32 = .error (.reservedOpcode 7) := by decide
/-- `zone 13, 30` is 0x50001E0D (42_command_encoders.md R83). -/
theorem test_encode_zone : encode (.zone 13 30) = 0x50001E0D#32 := by decide
/-- `wrfield 6, 4, 0x5` is 0x10060405 (40_frame_builder.md R64). -/
theorem test_encode_wrfield : encode (.wrfield 6 4 5) = 0x10060405#32 := by decide

/-! ### Small states -/

/-- The default parameters with a chosen FIELD_ORDER, at 2 MHz (DIV = 2). -/
def testConfig (o : FieldOrder) : Config := { defaultConfig with fieldOrder := o, clkHz := 2000000 }

/-- The reset state under LSB_AT_POS. -/
def idleState : State := State.resetFor (testConfig .lsbAtPos)

/-- The reset state under MSB_AT_POS. -/
def idleMsb : State := State.resetFor (testConfig .msbAtPos)

/-- A transmission just begun. -/
def busyState : State := startTx true idleState

/-- The last tick of the stop pulse of a one-byte frame. -/
def lastTick : State :=
  { idleState with flen := 1, phase := .bitL, pidx := 8, ucnt := 1 }

/-- `rst` held 1. -/
def heldState : State := assertReset idleState

/-- `s` with one access as its next event. -/
def withAccess (p : PortPins) (s : State) : State := { s with events := [.edge p] }

/-- A view of a result's next state. -/
def view {α : Type} (g : State → α) : Result → Option α
  | .next s => some (g s)
  | .fault _ => none
  | .refused _ => none

/-- The view of one step that issues the command word `w`. -/
def issue {α : Type} (s : State) (w : Nat) (g : State → α) : Option α :=
  view g (step (s.withFetchWord 32 w))

/-! ### One step of each command (95_test_vectors.md 2.2 to 2.8) -/

set_option maxRecDepth 4000

/-- 2.2, a field crossing a byte boundary under LSB_AT_POS. -/
theorem test_wrfield_lsb :
    issue idleState 0x10060405 (·.frame) = some #v[0x02, 0x80, 0, 0, 0, 0, 0, 0, 0, 0, 0, 0, 0, 0, 0] := by decide
/-- 2.2, the same field under MSB_AT_POS. -/
theorem test_wrfield_msb :
    issue idleMsb 0x10060405 (·.frame) = some #v[0x01, 0x40, 0, 0, 0, 0, 0, 0, 0, 0, 0, 0, 0, 0, 0] := by decide
/-- 2.3, `ldtpl prog`: STATUS 0x00000700. -/
theorem test_ldtpl_prog :
    issue idleState 0x20000001 (fun s => (s.frame, statusWord s)) =
      some (#v[0xFF, 0x40, 0x03, 0x96, 0x09, 0xBD, 0x7F, 0, 0, 0, 0, 0, 0, 0, 0], 0x00000700#32) := by decide
/-- 2.3, `clear 2`: STATUS[11:8] = 2. -/
theorem test_clear : issue idleState 0x30000002 (·.flen) = some 2#4 := by decide
/-- 2.3, `clear 0`: IPE, FLEN unchanged. -/
theorem test_clear_zero : issue idleState 0x30000000 (fun s => (s.ipe, s.flen)) = some (true, 15#4) := by decide
/-- 2.4, `xmit 1` at t = 0: the line is up with 325000 ticks to go. -/
theorem test_xmit :
    issue idleState 0x40000001 (fun s => (s.phase, s.line, s.ucnt, s.trail)) =
      some (.resetH, true, 325000#19, true) := by decide
/-- 2.5, `zone 13, 30` under LSB_AT_POS. -/
theorem test_zone_lsb :
    issue idleState 0x50001E0D (·.frame) =
      some #v[0xFF, 0x40, 0x00, 0x48, 0xF2, 0x48, 0x06, 0x3C, 0x32, 0x07, 0x8F, 0x3C, 0x81, 0xB9, 0xBF] := by decide
/-- 2.5, `zone 48, 240` under MSB_AT_POS. -/
theorem test_zone_msb :
    issue idleMsb 0x5000F030 (·.frame) =
      some #v[0xFF, 0x20, 0x01, 0x1C, 0x18, 0xEF, 0x53, 0x06, 0x9B, 0xD7, 0xC1, 0xBE, 0xF1, 0xBF, 0xBF] := by decide
/-- 2.6, `prog 3` under LSB_AT_POS, and STATUS at t = 0 from 2.4. -/
theorem test_prog :
    issue idleState 0x60000003 (fun s => (s.frame, statusWord s)) =
      some (#v[0xFF, 0x40, 0x03, 0x96, 0x89, 0xBD, 0x7F, 0, 0, 0, 0, 0, 0, 0, 0], 0x00000713#32) := by decide
/-- S3, `prog 5`: STATUS 0x00010F00. -/
theorem test_prog_5 : issue idleState 0x60000005 statusWord = some 0x00010F00#32 := by decide
/-- 2.7, `nop`. -/
theorem test_nop : issue idleState 0x00000000 statusWord = some 0x00000F00#32 := by decide
/-- 2.7, an illegal word in an idle block. -/
theorem test_illegal : issue idleState 0x70000000 statusWord = some 0x00020F00#32 := by decide
/-- 2.7, any word in a busy block sets OVR only; the STATUS of a first reset tick. -/
theorem test_busy : issue busyState 0xFFFFFFFF statusWord = some 0x00041F13#32 := by decide
/-- 2.4, the edge that ends a transmission still sees BUSY = 1. -/
theorem test_last_edge :
    issue { lastTick with presc := 1 } 0x00000000 (fun s => (s.phase, s.ovr)) = some (.idle, true) := by decide
/-- The fault of log 11 stands only on a state no run reaches: a pulse index above NP. -/
theorem test_stuck_pulse :
    step { lastTick with pidx := 200, presc := 1 } = .fault .stuckPulseIndex := by rfl

/-! ### The register port (95_test_vectors.md 2.8) -/

/-- `rd STATUS` in the reset state. -/
theorem test_read_status :
    view (·.rdata) (step (withAccess (readPins 0x04) idleState)) = some (some 0x00000F00#32) := by decide
/-- A write of 0x1234 to FRAME0 keeps the low byte. -/
theorem test_write_frame :
    view (fun s => frameByte s.frame 0) (step (withAccess (writePins 0x40 0x1234) idleState)) = some 0x34#8 := by decide
/-- A misaligned read: the error response, data 0. -/
theorem test_buserr :
    view (fun s => (s.err, s.rdata)) (step (withAccess (readPins 0x05) idleState)) = some (true, some 0x00000000#32) := by
  decide
/-- `wr STATUS, 0x00010000` with IPE and ILC set clears IPE only. -/
theorem test_clear_ipe :
    view (fun s => (s.ipe, s.ilc))
      (step (withAccess (writePins 0x04 0x00010000) { idleState with ipe := true, ilc := true })) =
      some (false, true) := by decide

/-- A FRAME0 write in a busy block with `reg_sel` = 0: no OVR and no error response (10_state.md R30). -/
theorem test_unselected :
    view (fun s => (s.ovr, s.err, s.phase)) (step (withAccess ⟨false, true, 0x40#7, 0b1111#4, 0xFF#32⟩ busyState)) =
      some (false, false, .resetH) := by decide

/-! ### States that meet the statements' hypotheses -/

theorem testConfig_legal (o : FieldOrder) : ConfigLegal (testConfig o) := by
  constructor <;> cases o <;> decide

theorem idleState_inv : idleState.Inv := by
  constructor
  case cfg_legal => exact testConfig_legal _
  all_goals decide

theorem busyState_inv : busyState.Inv := by
  constructor
  case cfg_legal => exact testConfig_legal _
  all_goals decide

theorem lastTick_inv : lastTick.Inv := by
  constructor
  case cfg_legal => exact testConfig_legal _
  all_goals decide

theorem heldState_inv : heldState.Inv := by
  constructor
  case cfg_legal => exact testConfig_legal _
  all_goals decide

/-- DecodeUndoesEncode, AssembledCommandIsItsWord: the largest operands of every command. -/
theorem witness_wellFormed :
    (∀ i ∈ [Instr.nop, .wrfield 127 7 255, .ldtpl .program, .clear 15, .xmit true, .zone 255 255, .prog 255],
      i.wellFormed = true) ∧ (Instr.prog 256).wellFormed = false := by decide

/-- EncodeUndoesDecode. -/
theorem witness_decode_ok : decode 0x107F07FF#32 = .ok (.wrfield 127 7 255) := by decide

/-- DecodeReadsEachFormat: a word with all operand bits 1 for each clause. -/
theorem witness_formats :
    0x107F07FF#32 &&& 0xFF80F800#32 = 0x10000000#32 ∧ 0x20000001#32 &&& 0xFFFFFFFE#32 = 0x20000000#32 ∧
    0x3000000F#32 &&& 0xFFFFFFF0#32 = 0x30000000#32 ∧ 0x40000001#32 &&& 0xFFFFFFFE#32 = 0x40000000#32 ∧
    0x5000FFFF#32 &&& 0xFFFF0000#32 = 0x50000000#32 ∧ 0x600000FF#32 &&& 0xFFFFFF00#32 = 0x60000000#32 := by decide

/-- OtherWordsAreIllegal: OP 7 and OP 15; OP 0 with one bit set, and OP 6 with its lowest reserved bit set. -/
theorem witness_other_words :
    7 ≤ ((0x70000000#32).extractLsb 31 28).toNat ∧ 7 ≤ ((0xFFFFFFFF#32).extractLsb 31 28).toNat ∧
    ∀ w ∈ [0x00000001#32, 0x60000100#32],
      (w.extractLsb 31 28).toNat < 7 ∧ w ≠ 0x00000000#32 ∧ w &&& 0xFF80F800#32 ≠ 0x10000000#32 ∧
      w &&& 0xFFFFFFFE#32 ≠ 0x20000000#32 ∧ w &&& 0xFFFFFFF0#32 ≠ 0x30000000#32 ∧
      w &&& 0xFFFFFFFE#32 ≠ 0x40000000#32 ∧ w &&& 0xFFFF0000#32 ≠ 0x50000000#32 ∧
      w &&& 0xFFFFFF00#32 ≠ 0x60000000#32 := by
  refine ⟨by decide, by decide, ?_⟩
  intro w hw
  obtain rfl | rfl : w = 0x00000001#32 ∨ w = 0x60000100#32 := by simpa using hw
  all_goals decide

/-- StepRunsTheDecodedCommand, IllegalWordSetsIlcOnly. -/
theorem witness_command_write :
    (withAccess ⟨true, true, 0x00#7, 0b1111#4, 0x60000003#32⟩ idleState).rst = false ∧
    (withAccess ⟨true, true, 0x00#7, 0b1111#4, 0x60000003#32⟩ idleState).busy = false ∧
    decode 0x60000003#32 = .ok (.prog 3) ∧ decode 0x70000000#32 = .error (.reservedOpcode 7) := by decide

/-- CommandWhileBusySetsOvrOnly, and the read, write and refused accesses below in a busy block: one event does not
change what the invariant says. -/
theorem busy_access_inv (p : PortPins) : (withAccess p busyState).Inv := by
  have h := busyState_inv
  refine ⟨h.cfg_legal, h.flen_pos, h.line_level, h.presc_lt, h.pidx_zero, h.pidx_lt, h.idle_zero, h.ucnt_range, ?_⟩
  intro hr
  cases hr

theorem idle_access_inv (p : PortPins) : (withAccess p idleState).Inv := by
  have h := idleState_inv
  refine ⟨h.cfg_legal, h.flen_pos, h.line_level, h.presc_lt, h.pidx_zero, h.pidx_lt, h.idle_zero, h.ucnt_range, ?_⟩
  intro hr
  cases hr

/-- CommandWhileBusySetsOvrOnly, BusyRejectsEveryCommand, NopChangesNothing (its busy clause),
AccessesDoNotTouchATransmission. -/
theorem witness_busy (p : PortPins) :
    (withAccess p busyState).Inv ∧ (withAccess p busyState).rst = false ∧ (withAccess p busyState).busy = true :=
  ⟨busy_access_inv p, rfl, rfl⟩

/-- NopChangesNothing, LdtplLoadsTheTemplate, XmitStartsATransmission, and the idle hypothesis of every other command's
statement. -/
theorem witness_idle : idleState.busy = false := by decide

/-- NopChangesNothing: a word of OP 0 with its lowest bit set. -/
theorem witness_nop_word : (0x00000001#32).extractLsb 31 28 = 0 ∧ 0x00000001#32 ≠ 0x00000000#32 := by decide

/-- WrfieldWritesItsField, at the end of the frame, and at its first offset with one bit. -/
theorem witness_wrfield_inside :
    1 ≤ 7 ∧ 113 + 7 ≤ 8 * idleState.flen.toNat ∧ 1 ≤ 1 ∧ 0 + 1 ≤ 8 * idleState.flen.toNat := by decide

/-- WrfieldOutsideTheFrameSetsIpe: WIDTH = 0, and one bit past the frame. -/
theorem witness_wrfield_outside :
    (0 = 0 ∨ 8 * idleState.flen.toNat < 10 + 0) ∧ (7 = 0 ∨ 8 * idleState.flen.toNat < 114 + 7) := by decide

/-- ClearZeroesTheFrame: both ends of the range. -/
theorem witness_clear : 1 ≤ 1 ∧ 1 ≤ 15 ∧ 15 ≤ 15 := by decide

/-- ZoneBuildsAndSendsItsFrame, ZoneFrameGivesBackItsInputs: both ends of both ranges. -/
theorem witness_zone_valid :
    (idleState.busy = false ∧ 1 ≤ 1 ∧ 1 ≤ 48 ∧ 0 ≤ 240) ∧ idleState.busy = false ∧ 1 ≤ 48 ∧ 48 ≤ 48 ∧ 240 ≤ 240 := by
  decide

/-- InvalidZoneSetsIpeOnly: each way to be out of range, just past the end. -/
theorem witness_zone_invalid :
    (0 = 0 ∨ 48 < 0 ∨ 240 < 0) ∧ (49 = 0 ∨ 48 < 49 ∨ 240 < 0) ∧ (1 = 0 ∨ 48 < 1 ∨ 240 < 241) := by decide

/-- ZoneFieldOrderIsIrrelevant: the reversed list. -/
theorem witness_zone_perm : (zoneFields 13 30).reverse.Perm (zoneFields 13 30) := List.reverse_perm _

/-- ProgBuildsAndSendsItsFrame and InvalidProgSetsIpeOnly: the ends of the range, and just past them. -/
theorem witness_prog :
    (1 ≤ 1 ∧ 1 ≤ 4) ∧ (1 ≤ 4 ∧ 4 ≤ 4) ∧ (0 = 0 ∨ 4 < 0) ∧ (5 = 0 ∨ 4 < 5) := by decide

/-- FrameOffsetsAreMsbFirst, ReadFieldUndoesWriteField: the last offset, and a field ending on it. -/
theorem witness_offsets : 119 < 120 ∧ 113 + 7 ≤ 120 := by decide

/-- ReadsAnswerByTheMap: an idle and a busy block, at an address of every clause. -/
theorem witness_reads :
    (∀ a : BitVec 7, (withAccess ⟨true, false, a, 0b1111#4, 0#32⟩ idleState).Inv) ∧
    (∀ a : BitVec 7, (withAccess ⟨true, false, a, 0b1111#4, 0#32⟩ busyState).Inv) ∧
    (∀ a ∈ [0x00#7, 0x04#7, 0x08#7, 0x0C#7, 0x3C#7, 0x40#7, 0x78#7, 0x7C#7], a.toNat % 4 = 0) ∧
    (0x40#7).toNat = 0x40 + 4 * 0 ∧ (0x78#7).toNat = 0x40 + 4 * 14 :=
  ⟨fun _ => idle_access_inv _, fun _ => busy_access_inv _, by decide, by decide, by decide⟩

/-- WritesTakeEffectByTheMap: an idle and a busy block; the addresses are those of `witness_reads`. -/
theorem witness_writes :
    (∀ (a : BitVec 7) (v : Word), (withAccess ⟨true, true, a, 0b1111#4, v⟩ idleState).Inv) ∧
    ∀ (a : BitVec 7) (v : Word), (withAccess ⟨true, true, a, 0b1111#4, v⟩ busyState).Inv :=
  ⟨fun _ _ => idle_access_inv _, fun _ _ => busy_access_inv _⟩

/-- PartialOrMisalignedAccessIsRefused: a byte enable off, and an address one past a word's start. -/
theorem witness_refused :
    (withAccess ⟨true, true, 0x00#7, 0b0111#4, 0#32⟩ busyState).Inv ∧
    ((0b0111#4) ≠ 0b1111#4 ∨ (0x00#7).toNat % 4 ≠ 0) ∧
    (withAccess ⟨true, false, 0x05#7, 0b1111#4, 0#32⟩ idleState).Inv ∧
    ((0b1111#4) ≠ 0b1111#4 ∨ (0x05#7).toNat % 4 ≠ 0) :=
  ⟨busy_access_inv _, by decide, idle_access_inv _, by decide⟩

/-- FlagsAreSticky: a set flag, and a write to STATUS that clears another one. -/
theorem witness_sticky :
    (withAccess (writePins 0x04 0x00020000) { idleState with ipe := true }).rst = false ∧
    (withAccess (writePins 0x04 0x00020000) { idleState with ipe := true }).ipe = true ∧
    (∃ t, step (withAccess (writePins 0x04 0x00020000) { idleState with ipe := true }) = .next t) ∧
    (∀ rest, (withAccess (writePins 0x04 0x00020000) { idleState with ipe := true }).events ≠ .rst true :: rest) ∧
    ∀ p rest, (withAccess (writePins 0x04 0x00020000) { idleState with ipe := true }).events = .edge p :: rest →
      p.wdata.getLsbD 16 = false := by
  refine ⟨rfl, rfl, ⟨_, rfl⟩, ?_, ?_⟩
  · intro rest h
    cases h
  · intro p rest h
    cases h
    rfl

/-- TickEndAdvances: UCNT above 1, and UCNT = 1 in the last segment of a transmission. -/
theorem witness_tick :
    busyState.Inv ∧ busyState.phase ≠ .idle ∧ 1 < busyState.ucnt.toNat ∧
    lastTick.Inv ∧ lastTick.phase = .bitL ∧ lastTick.ucnt = 1 ∧ lastTick.pidx.toNat + 1 = lastTick.np :=
  ⟨busyState_inv, by decide, by decide, lastTick_inv, by decide, by decide, by decide⟩

/-- A state in the last tick of the phase `p`, pulse `k`. -/
def atLastTick (p : Phase) (k : BitVec 8) : State :=
  { idleState with flen := 1, phase := p, line := p.level, pidx := k, ucnt := 1 }

theorem pulseTimes_pos :
    (∀ b, 1 ≤ (highTime (testConfig .lsbAtPos) b).toNat) ∧ ∀ b, 1 ≤ (lowTime (testConfig .lsbAtPos) b).toNat := by
  decide

theorem atLastTick_inv (p : Phase) (k : BitVec 8) (hp : p ≠ .idle) (hk : p.inPulse = false → k = 0)
    (hlt : k.toNat < 9) : (atLastTick p k).Inv where
  cfg_legal := testConfig_legal _
  flen_pos := by change (1#4) ≠ 0; decide
  line_level := rfl
  presc_lt := by change 0 < clkDiv (testConfig .lsbAtPos); decide
  pidx_zero := hk
  pidx_lt := hlt
  idle_zero h := absurd h hp
  ucnt_range _ := by
    refine ⟨le_refl 1, ?_⟩
    change 1 ≤ (atLastTick p k).segmentTicks
    cases p
    case idle => exact absurd rfl hp
    case bitH =>
      change 1 ≤ (highTime (testConfig .lsbAtPos) _).toNat
      exact pulseTimes_pos.1 _
    case bitL =>
      change 1 ≤ (lowTime (testConfig .lsbAtPos) _).toNat
      exact pulseTimes_pos.2 _
    case resetH => change 1 ≤ (testConfig .lsbAtPos).tResetH.toNat; decide
    case resetL => change 1 ≤ (testConfig .lsbAtPos).tResetL.toNat; decide
    case startH => change 1 ≤ (testConfig .lsbAtPos).tStartH.toNat; decide
    case startL => change 1 ≤ (testConfig .lsbAtPos).tStartL.toNat; decide
  reset_held h := by cases h

/-- TickEndAdvances: the last tick of every other segment, the pulses' clauses at the first and the last but one. -/
theorem witness_tick_segments :
    (atLastTick .resetH 0).Inv ∧ (atLastTick .resetL 0).Inv ∧ (atLastTick .startH 0).Inv ∧ (atLastTick .startL 0).Inv ∧
    (atLastTick .bitH 0).Inv ∧ (atLastTick .bitH 8).Inv ∧ (atLastTick .bitL 7).Inv ∧
    (atLastTick .bitL 7).pidx.toNat + 1 ≠ (atLastTick .bitL 7).np :=
  ⟨atLastTick_inv _ _ (by decide) (by decide) (by decide), atLastTick_inv _ _ (by decide) (by decide) (by decide),
    atLastTick_inv _ _ (by decide) (by decide) (by decide), atLastTick_inv _ _ (by decide) (by decide) (by decide),
    atLastTick_inv _ _ (by decide) (by decide) (by decide), atLastTick_inv _ _ (by decide) (by decide) (by decide),
    atLastTick_inv _ _ (by decide) (by decide) (by decide), by decide⟩

/-- PulsesCarryFrameTrailStop: a frame with the trailing bit. -/
theorem witness_trail : busyState.trail = true ∧ 119 < 8 * busyState.flen.toNat := by decide

/-- IdleBlockRests: with no event left, and with an edge that selects nothing, its other pins those of a FRAME0
write. -/
theorem witness_rest :
    (idleState.Inv ∧ idleState.rst = false ∧ idleState.busy = false ∧ idleState.events = []) ∧
    (withAccess ⟨false, true, 0x40#7, 0b1111#4, 0xFF#32⟩ idleState).Inv ∧
    (withAccess ⟨false, true, 0x40#7, 0b1111#4, 0xFF#32⟩ idleState).rst = false ∧
    (withAccess ⟨false, true, 0x40#7, 0b1111#4, 0xFF#32⟩ idleState).busy = false :=
  ⟨⟨idleState_inv, rfl, rfl, rfl⟩, idle_access_inv _, rfl, rfl⟩

/-- UnselectedEdgeRunsTheSequencerOnly: the pins of a CMD write and of a misaligned read, without `reg_sel`, in a busy
and an idle block. -/
theorem witness_unselected :
    (withAccess ⟨false, true, 0x00#7, 0b1111#4, 0xFFFFFFFF#32⟩ busyState).Inv ∧
    (withAccess ⟨false, true, 0x00#7, 0b1111#4, 0xFFFFFFFF#32⟩ busyState).rst = false ∧
    (withAccess ⟨false, false, 0x05#7, 0b0001#4, 0#32⟩ idleState).Inv ∧
    (withAccess ⟨false, false, 0x05#7, 0b0001#4, 0#32⟩ idleState).rst = false :=
  ⟨busy_access_inv _, rfl, idle_access_inv _, rfl⟩

/-- DivEdgesMakeOneTick, SequencerDrivesExactlyTheWave (with and without coming events). -/
theorem witness_wave (p : PortPins) :
    busyState.Inv ∧ busyState.rst = false ∧ busyState.busy = true ∧ busyState.phase = .resetH ∧
    busyState.ucnt = busyState.cfg.tResetH ∧ busyState.presc = 0 ∧ busyState.events = [] ∧ onlyEdges busyState.events ∧
    (withAccess p busyState).Inv ∧ onlyEdges (withAccess p busyState).events :=
  ⟨busyState_inv, rfl, rfl, rfl, rfl, rfl, rfl, (by intro e h; cases h), busy_access_inv p,
    (by intro e h; exact ⟨p, List.mem_singleton.1 h⟩)⟩

/-- SequencerDrivesExactlyTheWave: an access after the transmission that starts another, and one that does not. -/
theorem witness_starts :
    startsTransmission (writePins 0x00 0x40000001) ∧ ¬ startsTransmission (readPins 0x04) :=
  ⟨⟨rfl, rfl, rfl, rfl, .inl ⟨true, rfl⟩⟩, fun h => by cases h.2.1⟩

/-- ResetPinResetsAndHolds: `rst` rising in a transmission, an access while it is 1, and its fall. -/
theorem witness_reset (p : PortPins) :
    ({ busyState with events := [.rst true] } : State).events = .rst true :: [] ∧
    (withAccess p heldState).rst = true ∧ (withAccess p busyState).rst = false ∧
    heldState.Inv ∧ heldState.rst = true ∧ ({ heldState with events := [.rst false] } : State).Inv :=
  ⟨rfl, rfl, rfl, heldState_inv, rfl, by
    have h := heldState_inv
    exact ⟨h.cfg_legal, h.flen_pos, h.line_level, h.presc_lt, h.pidx_zero, h.pidx_lt, h.idle_zero, h.ucnt_range,
      fun _ => rfl⟩⟩

/-- EveryStepKeepsTheInvariant, ParametersNeverChange: a legal state with a next state. -/
theorem witness_step : busyState.Inv ∧ ∃ t, step busyState = .next t := ⟨busyState_inv, _, rfl⟩

/-- ResetMeetsTheInvariant: legal parameters. -/
theorem witness_config : ConfigLegal (testConfig .msbAtPos) := testConfig_legal _

/-! ### The assembler (30_encoding.md R61) -/

theorem test_stopz : expandStmt "L" (.stopz 5) = [.command (.zone 5 0)] := by decide
theorem test_clrerr : (expandStmt "L" .clrerr).map stmtPins = [some (writePins 0x04 0x00070000)] := by decide

/-- A program whose own label looks like the one `wait_idle` might take. -/
def pollProgram : List Stmt := [.label "L", .waitIdle, .bz 0x1 "L"]

/-- R61: the poll's label is fresh, so its branch goes to the poll. -/
theorem test_wait_idle_fresh :
    assembleProgram pollProgram = some [.label "L", .label "LLL", .rd .status, .bnz 0x1 "LLL", .bz 0x1 "L"] := by decide

/-- A host at the first statement of `prog`, with 5 in `$`. -/
def testHost (prog : List Stmt) : HostAgent := { program := prog, at_ := 0, dollar := 5, halted := false }

/-- R60: a `wr` leaves `$` alone, also while `rst` is 1. -/
theorem test_wr_keeps_dollar : (hostStep 0 (testHost [.wr .status 0]) heldState).1.dollar = 5#32 := by decide

/-- R60: `rd STATUS` names the word read. -/
theorem test_rd_dollar : (hostStep 0 (testHost [.rd .status]) idleState).1.dollar = 0x00000F00#32 := by decide

/-- R61: two polls, each with a label of its own. -/
theorem test_two_polls :
    assembleProgram [.waitIdle, .waitIdle] =
      some [.label "L", .rd .status, .bnz 0x1 "L", .label "LL", .rd .status, .bnz 0x1 "LL"] := by decide

/-- PseudoInstructionsExpandFresh: assembled programs, one with a label of its own, one with two `wait_idle`. -/
theorem witness_assembled :
    (∃ out, assembleProgram pollProgram = some out) ∧ pollProgram[1]? = some .waitIdle ∧
    (∃ out, assembleProgram [.waitIdle, .waitIdle] = some out) ∧
    [Stmt.waitIdle, .waitIdle][0]? = some .waitIdle ∧ [Stmt.waitIdle, .waitIdle][1]? = some .waitIdle ∧ 14 < 15 :=
  ⟨⟨_, test_wait_idle_fresh⟩, rfl, ⟨_, test_two_polls⟩, rfl, rfl, by decide⟩

/-- OnlyRdNamesDollar: a statement that is no `rd`, and reads out of reset, in reset, and of an address that is not
word-aligned. -/
theorem witness_dollar :
    (∀ r, (testHost [.wr .status 0]).program[0]? ≠ some (.rd r)) ∧
    (idleState.Inv ∧ heldState.Inv ∧ idleState.rst = false ∧ heldState.rst = true) ∧
    (testHost [.rd .status]).program[0]? = some (.rd .status) ∧ RegName.status.addr = some 0x04#7 ∧
    (RegName.address 5).addr = some 0x05#7 := by
  refine ⟨?_, ⟨idleState_inv, heldState_inv, rfl, rfl⟩, rfl, rfl, rfl⟩
  intro r h
  cases h

end Sys2Proof.Tests
end

/-! ### The parameters are fixed for the life of an instance (10_state.md R29)

`cfg` is followed through the layers of a step: the two checks of a command, the commands, the register port, the
sequencer beside it, the reset pin. No hypothesis on the state is needed: an illegal state may stop, but a state it
goes on to has the same parameters. -/

section
namespace Sys2Proof.Machine

/-- The BUSY check keeps the parameters if the command behind it does. -/
theorem whenIdle_cfg {run : State → Result} {s t : State} (hrun : ∀ u, run s = .next u → u.cfg = s.cfg)
    (h : whenIdle s run = .next t) : t.cfg = s.cfg := by
  by_cases hb : s.busy = true
  · rw [whenIdle_of_busy run hb] at h
    cases h; rfl
  · rw [whenIdle_of_idle run (Bool.eq_false_iff.2 hb)] at h
    exact hrun t h

/-- The operand check keeps the parameters if the command behind it does. -/
theorem checked_cfg {legal : Bool} {run : State → Result} {s t : State}
    (hrun : ∀ u, run s = .next u → u.cfg = s.cfg) (h : checked legal s run = .next t) : t.cfg = s.cfg := by
  by_cases hl : legal = true
  · rw [checked_of_legal run hl] at h
    exact hrun t h
  · rw [checked_of_illegal run (Bool.eq_false_iff.2 hl)] at h
    cases h; rfl

/-- No command changes a parameter, in any state and with any operands. -/
theorem exec_cfg {i : Instr} {s t : State} (h : exec i s = .next t) : t.cfg = s.cfg := by
  cases i with
  | nop => exact whenIdle_cfg (fun u hu => by cases hu; rfl) h
  | wrfield pos width value =>
    simp only [exec, execWrfield] at h
    exact whenIdle_cfg (fun u => checked_cfg fun v hv => by cases hv; rfl) h
  | ldtpl tpl =>
    simp only [exec, execLdtpl] at h
    exact whenIdle_cfg (fun u hu => by cases hu; rfl) h
  | clear len =>
    simp only [exec, execClear] at h
    exact whenIdle_cfg (fun u => checked_cfg fun v hv => by cases hv; rfl) h
  | xmit trail =>
    simp only [exec, execXmit] at h
    exact whenIdle_cfg (fun u hu => by cases hu; rfl) h
  | zone z m =>
    simp only [exec, execZone] at h
    exact whenIdle_cfg (fun u => checked_cfg fun v hv => by
      rw [← Host.Outcome.next.inj hv, startTx_cfg, loadFrame_cfg]) h
  | prog p =>
    simp only [exec, execProg] at h
    exact whenIdle_cfg (fun u => checked_cfg fun v hv => by
      rw [← Host.Outcome.next.inj hv, startTx_cfg, loadFrame_cfg]) h

/-- Issuing any word, legal or not, keeps the parameters. -/
theorem issueCommand_cfg {w : Word} {s t : State} (h : issueCommand w s = .next t) : t.cfg = s.cfg := by
  unfold issueCommand at h
  split at h
  · cases h; rfl
  · split at h
    · cases h; rfl
    · exact exec_cfg h

@[simp] theorem writeFrameByte_cfg (i : Nat) (v : Word) (s : State) : (writeFrameByte i v s).cfg = s.cfg := by
  unfold writeFrameByte
  split <;> rfl

/-- A legal write to any address keeps the parameters. -/
theorem memWrite_cfg {addr : BitVec 7} {v : Word} {s t : State} (h : memWrite addr v s = .next t) :
    t.cfg = s.cfg := by
  unfold memWrite at h
  split at h
  · exact issueCommand_cfg h
  · cases h; rfl
  · cases h; rfl
  · cases h; exact writeFrameByte_cfg ..
  · cases h; rfl

/-- No access, and no cycle without one, changes a parameter. -/
theorem portAccess_cfg {p : PortPins} {s t : State} (h : portAccess p s = .next t) : t.cfg = s.cfg := by
  unfold portAccess at h
  split at h
  · cases h; rfl
  · split at h
    · cases h; rfl
    · split at h
      · obtain ⟨u, hu, rfl⟩ := mapNext_eq_next h
        rw [respond_cfg, memWrite_cfg hu]
      · cases h; rfl

/-- The merged state has the parameters of the access's own state. -/
@[simp] theorem mergeEdge_cfg (s q a : State) : (mergeEdge s q a).cfg = a.cfg := by
  unfold mergeEdge
  split <;> rfl

/-- No running edge changes a parameter. -/
theorem runningEdge_cfg {p : PortPins} {s t : State} (h : runningEdge p s = .next t) : t.cfg = s.cfg := by
  unfold runningEdge at h
  split at h
  · obtain ⟨a, ha, rfl⟩ := mapNext_eq_next h
    rw [mergeEdge_cfg, portAccess_cfg ha]
  · cases h
  · cases h

/-- No edge, in reset or out of it, changes a parameter. -/
theorem clockEdge_cfg {p : PortPins} {s t : State} (h : clockEdge p s = .next t) : t.cfg = s.cfg := by
  unfold clockEdge at h
  split at h
  · cases h; rfl
  · exact runningEdge_cfg h

@[simp] theorem setResetPin_cfg (level : Bool) (s : State) : (setResetPin level s).cfg = s.cfg := by
  cases level <;> rfl

/-- No event changes a parameter. -/
theorem handleEvent_cfg {e : Event} {s t : State} (h : handleEvent e s = .next t) : t.cfg = s.cfg := by
  cases e with
  | rst level => cases h; exact setResetPin_cfg level s
  | edge p => exact clockEdge_cfg h

/-- Settles O45: a step is one event on a state with the same parameters, and no event changes them. -/
theorem parametersNeverChange : Obligations.ParametersNeverChange := by
  intro s s' h
  unfold step at h
  rw [handleEvent_cfg h]

end Sys2Proof.Machine
end

/-! ### Accesses of the register port, and the frame's offsets (20_memory.md R31-R37)

A read, and a refused access, change nothing but the port's answer, so beside them the sequencer's edge stands alone;
what is left is the address map, one equation for each of its rows. -/

section
namespace Sys2Proof.Machine

/-- A legal access is a full word at a word-aligned address (20_memory.md R32). -/
theorem accessLegal_eq_true_iff (p : PortPins) :
    accessLegal p = true ↔ p.be = 0b1111#4 ∧ p.addr.toNat % 4 = 0 := by
  simp [accessLegal]

/-- The two ways to be refused: a byte enable off, or an address inside a word (20_memory.md R32). -/
theorem accessLegal_eq_false_iff (p : PortPins) :
    accessLegal p = false ↔ p.be ≠ 0b1111#4 ∨ p.addr.toNat % 4 ≠ 0 := by
  rw [← Bool.not_eq_true, accessLegal_eq_true_iff]
  tauto

/-- FRAMEi stands at 0x40 + 4*i (20_memory.md R33). -/
theorem registerAt_frame {a : BitVec 7} {i : Nat} (hi : i < 15) (ha : a.toNat = 0x40 + 4 * i) :
    registerAt a = .frame i := by
  have hdiv : (a.toNat - 0x40) / 4 = i := by omega
  unfold registerAt
  rw [if_neg (by omega), if_neg (by omega), if_neg (by omega), if_pos (by omega), hdiv]

/-- The addresses between PROGRESS and FRAME0, and the last word, name no register (20_memory.md R34). -/
theorem registerAt_unmapped {a : BitVec 7} (ha : 0x0C ≤ a.toNat ∧ a.toNat ≤ 0x3C ∨ a.toNat = 0x7C) :
    registerAt a = .unmapped := by
  unfold registerAt
  rw [if_neg (by omega), if_neg (by omega), if_neg (by omega), if_neg (by omega)]

@[simp] theorem memRead_cmd (s : State) : memRead 0x00#7 s = 0 := rfl
@[simp] theorem memRead_status (s : State) : memRead 0x04#7 s = statusWord s := rfl
@[simp] theorem memRead_progress (s : State) : memRead 0x08#7 s = progressWord s := rfl

theorem memRead_frame {a : BitVec 7} {i : Nat} (s : State) (hi : i < 15) (ha : a.toNat = 0x40 + 4 * i) :
    memRead a s = (s.frame[i]).setWidth 32 := by
  simp only [memRead, registerAt_frame hi ha, frameByte_of_lt s.frame i hi]

theorem memRead_unmapped {a : BitVec 7} (s : State) (ha : 0x0C ≤ a.toNat ∧ a.toNat ≤ 0x3C ∨ a.toNat = 0x7C) :
    memRead a s = 0 := by
  simp only [memRead, registerAt_unmapped ha]

/-- No read looks at the coming events. -/
theorem memRead_events (a : BitVec 7) (s : State) (es : List Event) :
    memRead a { s with events := es } = memRead a s := rfl

/-- In a legal state the sequencer's edge has a next state, whatever the coming events. -/
theorem State.Inv.sequencerEdge_events {s : State} (hs : s.Inv) (es : List Event) :
    ∃ q, sequencerEdge { s with events := es } = .next q := by
  obtain ⟨q, hq, -⟩ := sequencerEdge_legal (s := { s with events := es })
    (hs.legal.congr rfl rfl rfl rfl rfl rfl rfl rfl rfl)
  exact ⟨q, hq⟩

/-- A step whose access changes nothing but the port's answer is the sequencer's edge with that answer. -/
theorem step_of_answer {s q : State} {p : PortPins} {rest : List Event} {d : Option Word} {e : Bool}
    (hr : s.rst = false) (hev : s.events = .edge p :: rest) (hq : sequencerEdge { s with events := rest } = .next q)
    (ha : portAccess p { s with events := rest } = .next { s with events := rest, rdata := d, err := e }) :
    step s = .next { q with rdata := d, err := e } := by
  rw [step_of_edge hev, clockEdge_of_running p (s := { s with events := rest }) hr]
  exact runningEdge_of_answer hq ha

/-- Settles O28: the access of a legal read answers `memRead` and changes nothing else, and `memRead` follows the
address map row by row. -/
theorem readsAnswerByTheMap : Obligations.ReadsAnswerByTheMap := by
  intro s a v rest hs hr ha hev
  obtain ⟨q, hq⟩ := hs.sequencerEdge_events rest
  have hread := portAccess_read (p := ⟨true, false, a, 0b1111#4, v⟩) { s with events := rest } rfl rfl
    ((accessLegal_eq_true_iff _).2 ⟨rfl, ha⟩)
  rw [memRead_events] at hread
  refine ⟨q, memRead a s, hq, step_of_answer hr hev hq hread, ?cmd, ?status, ?progress, ?frame, ?unmapped⟩
  case cmd => rintro rfl; exact memRead_cmd s
  case status => rintro rfl; exact memRead_status s
  case progress => rintro rfl; exact memRead_progress s
  case frame => exact fun i hi hai => memRead_frame s hi hai
  case unmapped => exact memRead_unmapped s

/-- Settles O30: a refused access changes nothing but the port's answer, which is the error response. -/
theorem partialOrMisalignedAccessIsRefused : Obligations.PartialOrMisalignedAccessIsRefused := by
  intro s p rest hs hr hsel hbad hev
  obtain ⟨q, hq⟩ := hs.sequencerEdge_events rest
  have hrefused := portAccess_refused { s with events := rest } hsel ((accessLegal_eq_false_iff p).2 hbad)
  refine ⟨q, hq, _, step_of_answer hr hev hq hrefused, fun hw => ?_⟩
  rw [hw]
  rfl

/-- Settles O24: an offset below 120 names a bit of a byte inside the buffer, and no other offset names that bit. -/
theorem frameOffsetsAreMsbFirst : Obligations.FrameOffsetsAreMsbFirst := by
  intro f o b h
  refine ⟨?_, fun p _ => fbit_setFbit f o p b h⟩
  rw [fbit, frameByte_of_lt f (o / 8) (by omega)]

end Sys2Proof.Machine
end

/-! ### Each format's mask and match (30_encoding.md R48-R55)

A mask and match pair fixes every bit the mask keeps: the OP field, which picks the format, and the reserved fields,
which must be zero. The bits the mask drops are the operands. -/

section
namespace Sys2Proof

/-- A field whose bits the mask all keeps is the match's field. -/
theorem field_of_masked {w mask value : Word} {hi lo : Nat} (h : w &&& mask = value) (hle : lo ≤ hi)
    (hkept : mask.extractLsb hi lo = BitVec.allOnes (hi - lo + 1)) : field w hi lo = field value hi lo := by
  have hslice : value.extractLsb hi lo = w.extractLsb hi lo := by
    rw [← h, BitVec.extractLsb_and, hkept, BitVec.and_allOnes]
  rw [field_eq_extractLsb w hi lo hle, field_eq_extractLsb value hi lo hle, hslice]

/-- A field of one bit is that bit. -/
theorem field_bit (w : Word) (k : Nat) : field w k k = (w.getLsbD k).toNat := by
  unfold field
  rw [BitVec.getLsbD, Nat.toNat_testBit, Nat.add_sub_cancel_left, pow_one]

theorem templateOfBit_toNat (b : Bool) : templateOfBit b.toNat = if b then .program else .zone := by
  cases b <;> rfl

theorem decode_wrfield_of_masked {w : Word} (h : w &&& 0xFF80F800#32 = 0x10000000#32) :
    decode w = .ok (.wrfield (field w 22 16) (field w 10 8) (field w 7 0)) := by
  have hop : field w 31 28 = 1 := field_of_masked h (by decide) (by decide)
  have hhigh : field w 27 23 = 0 := field_of_masked h (by decide) (by decide)
  have hmid : field w 15 11 = 0 := field_of_masked h (by decide) (by decide)
  simp only [decode, hop, hhigh, hmid]
  exact orReserved_of_true _ rfl

theorem decode_ldtpl_of_masked {w : Word} (h : w &&& 0xFFFFFFFE#32 = 0x20000000#32) :
    decode w = .ok (.ldtpl (templateOfBit (field w 0 0))) := by
  have hop : field w 31 28 = 2 := field_of_masked h (by decide) (by decide)
  have hzero : field w 27 1 = 0 := field_of_masked h (by decide) (by decide)
  simp only [decode, hop, hzero]
  exact orReserved_of_true _ rfl

theorem decode_clear_of_masked {w : Word} (h : w &&& 0xFFFFFFF0#32 = 0x30000000#32) :
    decode w = .ok (.clear (field w 3 0)) := by
  have hop : field w 31 28 = 3 := field_of_masked h (by decide) (by decide)
  have hzero : field w 27 4 = 0 := field_of_masked h (by decide) (by decide)
  simp only [decode, hop, hzero]
  exact orReserved_of_true _ rfl

theorem decode_xmit_of_masked {w : Word} (h : w &&& 0xFFFFFFFE#32 = 0x40000000#32) :
    decode w = .ok (.xmit (field w 0 0 == 1)) := by
  have hop : field w 31 28 = 4 := field_of_masked h (by decide) (by decide)
  have hzero : field w 27 1 = 0 := field_of_masked h (by decide) (by decide)
  simp only [decode, hop, hzero]
  exact orReserved_of_true _ rfl

theorem decode_zone_of_masked {w : Word} (h : w &&& 0xFFFF0000#32 = 0x50000000#32) :
    decode w = .ok (.zone (field w 7 0) (field w 15 8)) := by
  have hop : field w 31 28 = 5 := field_of_masked h (by decide) (by decide)
  have hzero : field w 27 16 = 0 := field_of_masked h (by decide) (by decide)
  simp only [decode, hop, hzero]
  exact orReserved_of_true _ rfl

theorem decode_prog_of_masked {w : Word} (h : w &&& 0xFFFFFF00#32 = 0x60000000#32) :
    decode w = .ok (.prog (field w 7 0)) := by
  have hop : field w 31 28 = 6 := field_of_masked h (by decide) (by decide)
  have hzero : field w 27 8 = 0 := field_of_masked h (by decide) (by decide)
  simp only [decode, hop, hzero]
  exact orReserved_of_true _ rfl

/-- Settles O3: the match fixes the OP field and the reserved fields of its format, and each operand is the slice of
its own bits. -/
theorem decodeReadsEachFormat : Obligations.DecodeReadsEachFormat := by
  intro w
  refine ⟨?nop, ?wrfield, ?ldtpl, ?clear, ?xmit, ?zone, ?prog⟩
  case nop => rintro rfl; rfl
  case wrfield =>
    intro h
    rw [decode_wrfield_of_masked h, field_eq_extractLsb w 22 16 (by decide), field_eq_extractLsb w 10 8 (by decide),
      field_eq_extractLsb w 7 0 (by decide)]
  case ldtpl =>
    intro h
    rw [decode_ldtpl_of_masked h, field_bit, templateOfBit_toNat]
  case clear =>
    intro h
    rw [decode_clear_of_masked h, field_eq_extractLsb w 3 0 (by decide)]
  case xmit =>
    intro h
    simp [decode_xmit_of_masked h, field_bit]
  case zone =>
    intro h
    rw [decode_zone_of_masked h, field_eq_extractLsb w 7 0 (by decide), field_eq_extractLsb w 15 8 (by decide)]
  case prog =>
    intro h
    rw [decode_prog_of_masked h, field_eq_extractLsb w 7 0 (by decide)]

end Sys2Proof
end

/-! ### The assembled program (30_encoding.md R61)

An expanded program is cut at a `wait_idle`. The label at the cut is in nothing before it, so its place is the length
of what stands before, and the branch of the poll finds the poll. -/

section
namespace Sys2Proof.Machine

/-- A label stands where it first occurs. -/
theorem findLabel_append_label {pre : List Stmt} {name : String} (post : List Stmt) (h : .label name ∉ pre) :
    findLabel (pre ++ .label name :: post) name = some pre.length := by
  have hpre : pre.findIdx? (· == .label name) = none :=
    List.findIdx?_eq_none_iff.2 fun st hst => beq_eq_false_iff_ne.2 fun heq => h (heq ▸ hst)
  simp [findLabel, List.findIdx?_append, List.findIdx?_cons, hpre]

/-- A program expanded with a label for each of its places (30_encoding.md R61). -/
def expandWith (label : Nat → String) (prog : List Stmt) : List Stmt :=
  (prog.zipIdx.map fun p => expandStmt (label p.2) p.1).flatten

theorem expandProgram_eq_expandWith (prog : List Stmt) : expandProgram prog = expandWith (freshLabel prog) prog := rfl

/-- Cut at any place of the program, its expansion is the expansions before that place, its own, and the rest. -/
theorem expandWith_split (label : Nat → String) {prog : List Stmt} {k : Nat} {st : Stmt} (h : prog[k]? = some st) :
    ∃ post, expandWith label prog = expandWith label (prog.take k) ++ (expandStmt (label k) st ++ post) := by
  obtain ⟨hk, rfl⟩ := List.getElem?_eq_some_iff.1 h
  have hcut : prog.zipIdx = (prog.take k).zipIdx ++ (prog[k], k) :: (prog.drop (k + 1)).zipIdx (k + 1) := by
    conv_lhs => rw [← List.take_append_drop k prog, List.drop_eq_getElem_cons hk]
    rw [List.zipIdx_append, List.length_take_of_le hk.le, List.zipIdx_cons, Nat.zero_add]
  exact ⟨_, by rw [expandWith, hcut, List.map_append, List.map_cons, List.flatten_append, List.flatten_cons]; rfl⟩

/-- A statement's own labels apart, a label of the expansion is that of a `wait_idle`'s place. -/
theorem label_mem_expandWith {label : Nat → String} {prog : List Stmt} {name : String}
    (h : .label name ∈ expandWith label prog) :
    (∃ j < prog.length, name = label j) ∨ ∃ st ∈ prog, name ∈ st.names := by
  rw [expandWith, ← List.flatMap_def, List.mem_flatMap] at h
  obtain ⟨⟨st, j⟩, hmem, hlabel⟩ := h
  obtain ⟨hj, hst⟩ := List.mem_zipIdx' hmem
  rcases label_mem_expandStmt hlabel with ⟨-, hname⟩ | hname
  · exact .inl ⟨j, hj, hname⟩
  · exact .inr ⟨st, hst ▸ List.getElem_mem hj, hname⟩

/-- The fresh label of a place is in nothing that stands before it. -/
theorem freshLabel_notMem_expandWith_take (prog : List Stmt) (k : Nat) :
    .label (freshLabel prog k) ∉ expandWith (freshLabel prog) (prog.take k) := by
  intro h
  rcases label_mem_expandWith h with ⟨j, hj, hname⟩ | ⟨st, hst, hname⟩
  · have hkj := freshLabel_injective prog hname
    rw [List.length_take] at hj
    omega
  · exact freshLabel_notMem prog k (List.mem_of_mem_take hst) hname

/-- A branch to the fresh label of a `wait_idle` goes to its poll. -/
theorem findLabel_expandProgram {prog : List Stmt} {k : Nat} (h : prog[k]? = some .waitIdle) :
    findLabel (expandProgram prog) (freshLabel prog k) =
      some (expandWith (freshLabel prog) (prog.take k)).length := by
  obtain ⟨post, hsplit⟩ := expandWith_split (freshLabel prog) h
  rw [expandProgram_eq_expandWith, hsplit]
  exact findLabel_append_label _ (freshLabel_notMem_expandWith_take prog k)

/-- Settles O47: the assembler answers with the expansion under `freshLabel`, whose labels differ from place to place
and from every name of the program. -/
theorem pseudoInstructionsExpandFresh : Obligations.PseudoInstructionsExpandFresh := by
  refine ⟨fun l z i v => ⟨rfl, rfl, rfl, rfl, fun hi => if_pos hi⟩, fun prog out h => ?_⟩
  obtain rfl := assembleProgram_eq_some h
  refine ⟨freshLabel prog, expandProgram_eq_expandWith prog, ?notNamed, ?distinct, ?found⟩
  case notNamed => exact fun k st hst => freshLabel_notMem prog k hst
  case distinct => exact fun j k _ _ heq => freshLabel_injective prog heq
  case found => exact fun k hk => findLabel_expandProgram hk

end Sys2Proof.Machine
end

/-! ### WRFIELD inside the frame (40_frame_builder.md R62, R64)

In an idle block a legal WRFIELD is one `WriteField` on the frame, whose bits `fbit_writeField` states; a field that
ends inside the frame ends inside the buffer, because FLEN is at most 15. -/

section
namespace Sys2Proof.Machine

/-- A legal field is not empty and ends inside the frame (40_frame_builder.md R64). -/
theorem fieldLegal_eq_true_iff (pos width : Nat) (flen : BitVec 4) :
    fieldLegal pos width flen = true ↔ 1 ≤ width ∧ pos + width ≤ 8 * flen.toNat := by
  simp [fieldLegal, Nat.one_le_iff_ne_zero]

/-- A legal field ends inside the buffer, the frame being at most 15 bytes long. -/
theorem field_end_le_of_fieldLegal {pos width : Nat} {flen : BitVec 4} (h : fieldLegal pos width flen = true) :
    pos + width ≤ 120 := by
  obtain ⟨-, hend⟩ := (fieldLegal_eq_true_iff pos width flen).1 h
  have hflen := flen.isLt
  omega

/-- A legal WRFIELD in an idle block is one `WriteField` on the frame and nothing else. -/
theorem exec_wrfield_of_fieldLegal {s : State} {pos width : Nat} (value : Nat) (hb : s.busy = false)
    (h : fieldLegal pos width s.flen = true) :
    exec (.wrfield pos width value) s =
      .next { s with frame := writeField s.cfg.fieldOrder pos value width s.frame } := by
  simp only [exec, execWrfield, whenIdle_of_idle _ hb, checked_of_legal _ h]

/-- Settles O13: the command is one `WriteField`, and each bit after it is the field's or the old one; the field's bit
of the value is the one FIELD_ORDER names. -/
theorem wrfieldWritesItsField : Obligations.WrfieldWritesItsField := by
  intro s pos width value hb hwidth hend
  have hlegal := (fieldLegal_eq_true_iff pos width s.flen).2 ⟨hwidth, hend⟩
  refine ⟨_, exec_wrfield_of_fieldLegal value hb hlegal, fun o _ => ?_⟩
  rw [fbit_writeField _ pos value width s.frame o (field_end_le_of_fieldLegal hlegal)]
  cases s.cfg.fieldOrder with
  | lsbAtPos => rfl
  | msbAtPos => rfl

end Sys2Proof.Machine
end

/-! ### The pulse sequence and how long it lasts (41_transmitter.md R69, R79)

A pulse of either bit is one T_SHORT and one T_LONG in some order, so the first `m` pulses last
`m * (T_SHORT + T_LONG)` ticks whatever their bits. The waveform is cut at a pulse: the prologue and the pulses before
it, its own two segments, and the rest. -/

section
namespace Sys2Proof.Machine

/-! #### The bit of each pulse -/

theorem txBit_of_frame {f : Frame} {n k : Nat} (trail : Bool) (h : k < 8 * n) :
    txBit f n trail k = some (fbit f k) :=
  if_pos h

@[simp] theorem txBit_trailing (f : Frame) (n : Nat) : txBit f n true (8 * n) = some true := by
  rw [txBit, if_neg (Nat.lt_irrefl _), if_pos ⟨rfl, rfl⟩]

/-- The last pulse comes after the frame's bits and after the trailing bit, so it is the stop bit. -/
@[simp] theorem txBit_stop (f : Frame) (n : Nat) (trail : Bool) :
    txBit f n trail (pulseCount n trail - 1) = some false := by
  have hframe : ¬ 8 * n + trail.toNat < 8 * n := by omega
  have htrail : ¬ (8 * n + trail.toNat = 8 * n ∧ trail = true) := by cases trail <;> simp
  rw [pulseCount, Nat.add_sub_cancel, txBit, if_neg hframe, if_neg htrail, pulseCount, if_pos rfl]

/-- Settles O33: each claim is one case of `TxBit`. -/
theorem pulsesCarryFrameTrailStop : Obligations.PulsesCarryFrameTrailStop := by
  intro s
  refine ⟨?count, ?frame, ?trailing, ?stop, ?beyond, rfl, rfl⟩
  case count => cases h : s.trail <;> simp [State.np, pulseCount, h]
  case frame => exact fun k hk => txBit_of_frame s.trail hk
  case trailing =>
    intro h
    rw [State.tx, h, txBit_trailing]
  case stop => exact txBit_stop s.frame s.flen.toNat s.trail
  case beyond => exact fun k hk => txBit_eq_none hk

/-! #### Durations -/

@[simp] theorem totalTicks_append (gs hs : List Segment) : totalTicks (gs ++ hs) = totalTicks gs + totalTicks hs := by
  simp [totalTicks]

@[simp] theorem length_pulseSegments (c : Config) (k : Nat) (b : Bool) : (pulseSegments c k b).length = 2 := rfl

@[simp] theorem length_prologueSegments (c : Config) : (prologueSegments c).length = 4 := rfl

theorem totalTicks_prologueSegments (c : Config) :
    totalTicks (prologueSegments c) = c.tResetH.toNat + c.tResetL.toNat + c.tStartH.toNat + c.tStartL.toNat := by
  simp [totalTicks, prologueSegments, Nat.add_assoc]

/-- A 1 is long then short, a 0 short then long (41_transmitter.md R68): the sum is the same. -/
theorem totalTicks_pulseSegments (c : Config) (k : Nat) (b : Bool) :
    totalTicks (pulseSegments c k b) = c.tShort.toNat + c.tLong.toNat := by
  cases b with
  | false => rfl
  | true => exact Nat.add_comm c.tLong.toNat c.tShort.toNat

/-- The segments of the first `m` pulses of a transmission. -/
def pulseTrain (c : Config) (f : Frame) (n : Nat) (trail : Bool) (m : Nat) : List Segment :=
  (List.range m).flatMap fun k => pulseSegments c k ((txBit f n trail k).getD false)

theorem waveSegments_eq (c : Config) (f : Frame) (n : Nat) (trail : Bool) :
    waveSegments c f n trail = prologueSegments c ++ pulseTrain c f n trail (pulseCount n trail) := rfl

theorem pulseTrain_succ (c : Config) (f : Frame) (n : Nat) (trail : Bool) (m : Nat) :
    pulseTrain c f n trail (m + 1) =
      pulseTrain c f n trail m ++ pulseSegments c m ((txBit f n trail m).getD false) := by
  simp [pulseTrain, List.range_succ]

@[simp] theorem length_pulseTrain (c : Config) (f : Frame) (n : Nat) (trail : Bool) (m : Nat) :
    (pulseTrain c f n trail m).length = 2 * m := by
  induction m with
  | zero => rfl
  | succ m ih => rw [pulseTrain_succ, List.length_append, ih, length_pulseSegments, Nat.mul_succ]

theorem totalTicks_pulseTrain (c : Config) (f : Frame) (n : Nat) (trail : Bool) (m : Nat) :
    totalTicks (pulseTrain c f n trail m) = m * (c.tShort.toNat + c.tLong.toNat) := by
  induction m with
  | zero => rw [Nat.zero_mul]; rfl
  | succ m ih => rw [pulseTrain_succ, totalTicks_append, ih, totalTicks_pulseSegments, Nat.succ_mul]

/-- A longer train begins with a shorter one. -/
theorem pulseTrain_eq_append (c : Config) (f : Frame) (n : Nat) (trail : Bool) {j m : Nat} (h : j ≤ m) :
    ∃ rest, pulseTrain c f n trail m = pulseTrain c f n trail j ++ rest := by
  induction m, h using Nat.le_induction with
  | base => exact ⟨[], (List.append_nil _).symm⟩
  | succ m _ ih =>
    obtain ⟨rest, hrest⟩ := ih
    exact ⟨_, by rw [pulseTrain_succ, hrest, List.append_assoc]⟩

/-- Cut at pulse `k`, the waveform is the prologue and the pulses before it, its own two segments, and the rest. -/
theorem waveSegments_split (c : Config) (f : Frame) {n k : Nat} {trail : Bool} (h : k < pulseCount n trail) :
    ∃ rest, waveSegments c f n trail =
      (prologueSegments c ++ pulseTrain c f n trail k) ++
        (pulseSegments c k ((txBit f n trail k).getD false) ++ rest) := by
  obtain ⟨rest, hrest⟩ := pulseTrain_eq_append c f n trail (Nat.succ_le_of_lt h)
  exact ⟨rest, by simp only [waveSegments_eq, hrest, pulseTrain_succ, List.append_assoc]⟩

theorem length_prologue_pulseTrain (c : Config) (f : Frame) (n : Nat) (trail : Bool) (k : Nat) :
    (prologueSegments c ++ pulseTrain c f n trail k).length = 4 + 2 * k := by
  rw [List.length_append, length_prologueSegments, length_pulseTrain]

/-- What comes before pulse `k` is the prologue and `k` pulses. -/
theorem take_waveSegments (c : Config) (f : Frame) {n k : Nat} {trail : Bool} (h : k < pulseCount n trail) :
    (waveSegments c f n trail).take (4 + 2 * k) = prologueSegments c ++ pulseTrain c f n trail k := by
  obtain ⟨rest, hsplit⟩ := waveSegments_split c f h
  rw [hsplit, List.take_left' (length_prologue_pulseTrain c f n trail k)]

/-- The segment after the prologue and `k` pulses is the HIGH part of pulse `k`. -/
theorem getElem?_waveSegments (c : Config) (f : Frame) {n k : Nat} {trail : Bool} (h : k < pulseCount n trail) :
    (waveSegments c f n trail)[4 + 2 * k]? =
      some ⟨.bitH, k, (highTime c ((txBit f n trail k).getD false)).toNat⟩ := by
  obtain ⟨rest, hsplit⟩ := waveSegments_split c f h
  have hlen := length_prologue_pulseTrain c f n trail k
  rw [hsplit, List.getElem?_append_right hlen.le, hlen, Nat.sub_self]
  rfl

/-- With the default durations the prologue lasts 391108 ticks and a pulse 2083 (41_transmitter.md R79). -/
theorem totalTicks_prologue_pulseTrain_default (f : Frame) (n : Nat) (trail : Bool) (m : Nat) :
    totalTicks (prologueSegments defaultConfig ++ pulseTrain defaultConfig f n trail m) = 391108 + 2083 * m := by
  have hprologue : totalTicks (prologueSegments defaultConfig) = 391108 := rfl
  have hpulse : defaultConfig.tShort.toNat + defaultConfig.tLong.toNat = 2083 := rfl
  rw [totalTicks_append, hprologue, totalTicks_pulseTrain, hpulse, Nat.mul_comm]

/-- Settles O38: the whole waveform, and what comes before a pulse, are each the prologue and a train of pulses, whose
durations do not depend on the bits. -/
theorem transmissionDuration : Obligations.TransmissionDuration := by
  refine ⟨?formula, ?default, ?pulse, ?zone, ?program⟩
  case formula =>
    intro c f n trail
    rw [waveSegments_eq, totalTicks_append, totalTicks_prologueSegments, totalTicks_pulseTrain, pulseCount]
  case default => exact fun f n trail => totalTicks_prologue_pulseTrain_default f n trail (pulseCount n trail)
  case pulse =>
    intro f n trail k hk
    refine ⟨?_, ?_⟩
    · rw [take_waveSegments defaultConfig f hk, totalTicks_prologue_pulseTrain_default]
    · rw [getElem?_waveSegments defaultConfig f hk, Option.map_some]
  case zone => exact fun f => totalTicks_prologue_pulseTrain_default f 15 true 122
  case program => exact fun f => totalTicks_prologue_pulseTrain_default f 7 false 57

end Sys2Proof.Machine
end

/-! ### The command encoders' frames and their operand checks (42_command_encoders.md R81-R88)

A field whose bits are a value's bits reads back as that value's low bits, under either FIELD_ORDER. The fields of a
zone frame share no offset, so each reads back what was written to it, and the order of the writes is not seen. -/

section
namespace Sys2Proof.Machine

/-! #### Reading a field back (42_command_encoders.md R86) -/

/-- The low `n + 1` bits of a number are its low `n` bits and bit `n`. -/
theorem mod_two_pow_add_testBit (x n : Nat) : x % 2 ^ n + (x.testBit n).toNat * 2 ^ n = x % 2 ^ (n + 1) := by
  rw [Nat.toNat_testBit, Nat.mod_pow_succ, Nat.mul_comm]

/-- With LSB_AT_POS the first `n` offsets of a field hold the value's low `n` bits. -/
theorem readBits_lsbAtPos {pos value width : Nat} {f : Frame} (n : Nat)
    (h : ∀ j < n, fbit f (pos + j) = value.testBit j) : readBits .lsbAtPos pos width f n = value % 2 ^ n := by
  induction n with
  | zero => simp [readBits, Nat.mod_one]
  | succ n ih =>
    rw [readBits, ih fun j hj => h j (by omega), h n (by omega)]
    exact mod_two_pow_add_testBit value n

/-- With MSB_AT_POS the first `n` offsets of a field hold the top `n` of the value's low `width` bits: the bits below
them are what is missing. -/
theorem readBits_msbAtPos {pos value width : Nat} {f : Frame} (n : Nat) (hn : n ≤ width)
    (h : ∀ j < n, fbit f (pos + j) = value.testBit (width - 1 - j)) :
    readBits .msbAtPos pos width f n + value % 2 ^ (width - n) = value % 2 ^ width := by
  induction n with
  | zero => simp [readBits]
  | succ n ih =>
    have hplace : width - (n + 1) = width - 1 - n := by omega
    have hnext : width - n = width - 1 - n + 1 := by omega
    rw [← ih (by omega) fun j hj => h j (by omega), readBits, h n (by omega), hplace, hnext,
      ← mod_two_pow_add_testBit]
    ring

/-- A field that holds a value's bits at the places FIELD_ORDER gives them reads as the value's low `width` bits. -/
theorem readField_of_valueBit {order : FieldOrder} {pos value width : Nat} {f : Frame}
    (h : ∀ j < width, fbit f (pos + j) = valueBit order value width j) :
    readField order pos width f = value % 2 ^ width := by
  cases order with
  | lsbAtPos => exact readBits_lsbAtPos width h
  | msbAtPos => simpa [readField, Nat.mod_one] using readBits_msbAtPos width le_rfl h

/-! #### Lists of fields that share no offset (42_command_encoders.md R85) -/

theorem FieldWrite.apart_symm {v w : FieldWrite} (h : v.apart w) : w.apart v :=
  Or.symm h

/-- Each field of a list of fields that share no offset reads back what was written to it. -/
theorem readField_writeFields (order : FieldOrder) {ws : List FieldWrite} (f : Frame) {w : FieldWrite}
    (hin : ∀ v ∈ ws, v.inBuffer) (hap : ws.Pairwise FieldWrite.apart) (hw : w ∈ ws) :
    readField order w.pos w.width (writeFields order ws f) = w.value % 2 ^ w.width := by
  apply readField_of_valueBit
  intro j hj
  rw [fbit_writeFields_inside order ws f w _ hin hap hw (by omega) (by omega), Nat.add_sub_cancel_left]

/-- Fields that share no offset may be written in any order: each bit is the same one field's, or none's. -/
theorem writeFields_perm (order : FieldOrder) {ws vs : List FieldWrite} (f : Frame) (hp : ws.Perm vs)
    (hin : ∀ v ∈ vs, v.inBuffer) (hap : vs.Pairwise FieldWrite.apart) :
    writeFields order ws f = writeFields order vs f := by
  have hin' : ∀ w ∈ ws, w.inBuffer := fun w hw => hin w (hp.mem_iff.1 hw)
  have hap' : ws.Pairwise FieldWrite.apart := hp.symm.pairwise hap FieldWrite.apart_symm
  apply frame_ext_fbit
  intro o _
  by_cases hcov : ∃ w ∈ vs, w.pos ≤ o ∧ o < w.pos + w.width
  · obtain ⟨w, hw, hlo, hhi⟩ := hcov
    rw [fbit_writeFields_inside order ws f w o hin' hap' (hp.mem_iff.2 hw) hlo hhi,
      fbit_writeFields_inside order vs f w o hin hap hw hlo hhi]
  · have hout : ∀ w ∈ vs, o < w.pos ∨ w.pos + w.width ≤ o := fun w hw =>
      or_iff_not_imp_left.2 fun h => Nat.le_of_not_lt fun h' => hcov ⟨w, hw, Nat.le_of_not_lt h, h'⟩
    rw [fbit_writeFields_outside order ws f o hin' fun w hw => hout w (hp.mem_iff.1 hw),
      fbit_writeFields_outside order vs f o hin hout]

/-! #### The fields of a zone frame (42_command_encoders.md R82, R85) -/

theorem zoneFields_width_end (z m : Nat) :
    ∀ w ∈ zoneFields z m, 1 ≤ w.width ∧ w.width ≤ 7 ∧ w.pos + w.width ≤ 113 := by
  simp [zoneFields]

theorem zoneFields_inBuffer (z m : Nat) : ∀ w ∈ zoneFields z m, w.inBuffer := fun w hw => by
  obtain ⟨-, -, hend⟩ := zoneFields_width_end z m w hw
  exact Nat.le_trans hend (by decide)

theorem zoneFields_apart (z m : Nat) : (zoneFields z m).Pairwise FieldWrite.apart := by
  simp [zoneFields, FieldWrite.apart]

/-- A row of the layout table for a write: its offset, its width, and the value its bits hold (R82, R84). -/
def FieldWrite.row (w : FieldWrite) : Nat × Nat × Nat :=
  (w.pos, w.width, w.value % 2 ^ w.width)

/-- The layout table of R82: for operands in range only the high bits of MIN and of ZONE - 1 are cut off (R84). -/
theorem zoneFields_map_row {z m : Nat} (hz : z ≤ 48) (hm : m ≤ 240) :
    (zoneFields z m).map FieldWrite.row =
      [(9, 2, if z > 12 then 1 else 2), (23, 7, z + 0x17), (36, 7, z + 0x17), (49, 7, z + 0x23), (62, 7, z + 0x23),
        (75, 7, z + 0x2F), (88, 7, z + 0x2F), (31, 4, m % 16), (57, 4, m % 16), (83, 4, m % 16), (44, 4, m / 16),
        (70, 4, m / 16), (96, 4, m / 16), (109, 4, (z - 1) % 16)] := by
  have hgroup : zoneGroup z % 2 ^ 2 = if z > 12 then 1 else 2 := by
    unfold zoneGroup
    split <;> rfl
  have hcopy : ∀ k ≤ 0x2F, (z + k) % 2 ^ 7 = z + k := fun k hk => Nat.mod_eq_of_lt (by omega)
  have hnibble : 2 ^ 4 = 16 := rfl
  have hminutes : (m >>> 4) % 16 = m / 16 := by
    rw [Nat.shiftRight_eq_div_pow]
    omega
  simp only [zoneFields, List.map_cons, List.map_nil, FieldWrite.row, hgroup, hcopy 0x17 (by decide),
    hcopy 0x23 (by decide), hcopy 0x2F (by decide), hnibble, hminutes]

/-! #### The commands in an idle block -/

/-- What a command that sends a frame writes: the frame and its length, TRAIL, and what StartTx writes. -/
theorem startTx_loadFrame (trail : Bool) (f : Frame) (n : Nat) (s : State) :
    startTx trail (loadFrame f n s) =
      { s with
        frame := f, flen := BitVec.ofNat 4 n, trail := trail
        phase := .resetH, line := true, ucnt := s.cfg.tResetH, pidx := 0, presc := 0 } := rfl

theorem zoneLegal_eq_true_iff (z m : Nat) : zoneLegal z m = true ↔ 1 ≤ z ∧ z ≤ 48 ∧ m ≤ 240 := by
  simp [zoneLegal, and_assoc]

theorem zoneLegal_eq_false_iff (z m : Nat) : zoneLegal z m = false ↔ z = 0 ∨ 48 < z ∨ 240 < m := by
  rw [← Bool.not_eq_true, zoneLegal_eq_true_iff]
  omega

theorem progLegal_eq_true_iff (p : Nat) : progLegal p = true ↔ 1 ≤ p ∧ p ≤ 4 := by
  simp [progLegal]

theorem progLegal_eq_false_iff (p : Nat) : progLegal p = false ↔ p = 0 ∨ 4 < p := by
  rw [← Bool.not_eq_true, progLegal_eq_true_iff]
  omega

/-- A valid ZONE in an idle block loads the zone frame and starts its transmission. -/
theorem exec_zone_of_legal {s : State} {z m : Nat} (hb : s.busy = false) (h : zoneLegal z m = true) :
    exec (.zone z m) s = .next (startTx true (loadFrame (zoneFrame s.cfg z m) 15 s)) := by
  simp only [exec, execZone, whenIdle_of_idle _ hb, checked_of_legal _ h]

/-- Settles O18: the frame is the 14 fields written into the template, each row of the table is one of them, and they
share no offset. -/
theorem zoneBuildsAndSendsItsFrame : Obligations.ZoneBuildsAndSendsItsFrame := by
  intro s z m hb hz1 hz48 hm
  refine ⟨zoneFrame s.cfg z m, ?effect, ?rows⟩
  case effect =>
    rw [exec_zone_of_legal hb ((zoneLegal_eq_true_iff z m).2 ⟨hz1, hz48, hm⟩), startTx_loadFrame]
    rfl
  case rows =>
    rw [← zoneFields_map_row hz48 hm]
    refine ⟨?inside, ?outside⟩
    case inside =>
      exact List.forall_mem_map.2 fun w hw =>
        readField_writeFields _ _ (zoneFields_inBuffer z m) (zoneFields_apart z m) hw
    case outside =>
      intro o _ hout
      exact fbit_writeFields_outside _ _ _ o (zoneFields_inBuffer z m) (List.forall_mem_map.1 hout)

/-- Settles O20: each copy of a zone number is the zone plus its constant, and each pair of minute fields holds the low
and the high four bits. -/
theorem zoneFrameGivesBackItsInputs : Obligations.ZoneFrameGivesBackItsInputs := by
  intro s z m hb hz1 hz48 hm
  obtain ⟨f, hexec, hrows, -⟩ := zoneBuildsAndSendsItsFrame s z m hb hz1 hz48 hm
  simp only [List.forall_mem_cons] at hrows
  obtain ⟨-, h23, h36, h49, h62, h75, h88, h31, h57, h83, h44, h70, h96, -⟩ := hrows
  refine ⟨_, hexec, ?zone, ?minutes⟩
  case zone => simp [h23, h36, h49, h62, h75, h88]
  case minutes => simp [h31, h57, h83, h44, h70, h96, Nat.mod_add_div]

/-- Settles O21: the fields stand at fixed offsets, which share none, and such writes commute. -/
theorem zoneFieldOrderIsIrrelevant : Obligations.ZoneFieldOrderIsIrrelevant := by
  intro c z m
  exact ⟨rfl, zoneFields_width_end z m, zoneFields_apart z m, fun ws hp =>
    writeFields_perm c.fieldOrder c.zoneTemplate hp (zoneFields_inBuffer z m) (zoneFields_apart z m)⟩

/-- Settles O19: operands out of range fail ZONE's check, which raises IPE before anything is built. -/
theorem invalidZoneSetsIpeOnly : Obligations.InvalidZoneSetsIpeOnly := by
  intro s z m hb hbad
  have hillegal := (zoneLegal_eq_false_iff z m).2 hbad
  simp only [exec, execZone, whenIdle_of_idle _ hb, checked_of_illegal _ hillegal]

/-- Settles O23: a program number out of range fails PROG's check, which raises IPE before anything is built. -/
theorem invalidProgSetsIpeOnly : Obligations.InvalidProgSetsIpeOnly := by
  intro s p hb hbad
  have hillegal := (progLegal_eq_false_iff p).2 hbad
  simp only [exec, execProg, whenIdle_of_idle _ hb, checked_of_illegal _ hillegal]

end Sys2Proof.Machine
end

/-! ### NOP (43_control.md R90)

NOP's format has no operand field, so below its OP field every bit is reserved: of the words of OP 0 only the word 0
passes. -/

section
namespace Sys2Proof

/-- An accepted word carries its command's opcode in its OP field (30_encoding.md R46, R47). -/
theorem field_op_of_decode {w : Word} {i : Instr} (h : decode w = .ok i) : field w 31 28 = i.opcode := by
  unfold decode at h
  split at h
  case h_8 => cases h
  all_goals
    obtain ⟨-, rfl⟩ := orReserved_eq_ok h
    assumption

/-- With OP 0, the field of all the other bits is zero in the word 0 alone. -/
theorem field_below_op_eq_zero_iff {w : Word} (hop : field w 31 28 = 0) : field w 27 0 = 0 ↔ w = 0x00000000#32 := by
  simp only [field] at hop ⊢
  bv_omega

theorem decode_of_op_zero {w : Word} (hop : field w 31 28 = 0) :
    decode w = if w = 0x00000000#32 then .ok .nop else .error (.reservedBitSet 0) := by
  simp only [decode, hop, orReserved, beq_iff_eq, field_below_op_eq_zero_iff hop]

theorem decode_eq_ok_nop_iff (w : Word) : decode w = .ok .nop ↔ w = 0x00000000#32 := by
  constructor
  · intro h
    by_contra hne
    rw [decode_of_op_zero (field_op_of_decode h), if_neg hne] at h
    cases h
  · rintro rfl
    rfl

end Sys2Proof

namespace Sys2Proof.Machine

/-- Settles O12: NOP is the busy check and nothing after it, and OP 0 leaves the decoder the word 0 or a reserved bit
that is set. -/
theorem nopChangesNothing : Obligations.NopChangesNothing := by
  refine ⟨?idle, ?busy, decode_eq_ok_nop_iff, ?illegal⟩
  case idle => exact fun s hb => whenIdle_of_idle _ hb
  case busy => exact fun s hb => whenIdle_of_busy _ hb
  case illegal =>
    intro w hop hne
    have hfield : field w 31 28 = 0 := by rw [field_eq_extractLsb w 31 28 (by decide), hop]; rfl
    rw [decode_of_op_zero hfield, if_neg hne]

end Sys2Proof.Machine
end

/-! ### No legal state stops (60_exceptions.md R101)

The block's one stop is the sequencer's, for a pulse that has no bit. A legal state holds PIDX below NP, so every pulse
that Advance asks for has one, and what stands around Advance hands its next state on. -/

section
namespace Sys2Proof.Machine

/-- `Advance()` has a next state in every legal state, whatever PRESC holds: the prologue asks for no bit, and PIDX
below NP gives each pulse its own. -/
theorem advance_total {s : State} (hs : s.Legal) : ∃ t, advance s = .next t := by
  cases hp : s.phase with
  | idle | resetH | resetL | startH => simp only [advance, hp]; exact ⟨_, rfl⟩
  | startL =>
    obtain ⟨t, ht, -⟩ := beginPulse_legal hs s.np_pos
    exact ⟨t, by simpa only [advance, hp] using ht⟩
  | bitH =>
    obtain ⟨t, ht, -⟩ := beginLow_legal hs
    exact ⟨t, by simpa only [advance, hp] using ht⟩
  | bitL =>
    by_cases hlast : s.pidx.toNat + 1 = s.np
    · exact ⟨_, by simp only [advance, hp, if_pos hlast]; rfl⟩
    · have hnext : s.pidx.toNat + 1 < s.np := by have := hs.pidx_lt; omega
      obtain ⟨t, ht, -⟩ := beginPulse_legal hs hnext
      exact ⟨t, by simpa only [advance, hp, if_neg hlast] using ht⟩

/-- `TickEnd()` has a next state in every legal state, whatever PRESC holds. -/
theorem tickEnd_total {s : State} (hs : s.Legal) : ∃ t, tickEnd s = .next t := by
  unfold tickEnd
  split
  · exact ⟨_, rfl⟩
  · exact advance_total hs

/-- A clock edge has a next state in every legal state, in reset or out of it, with any access. -/
theorem clockEdge_total (p : PortPins) {s : State} (hs : s.Legal) : ∃ t, clockEdge p s = .next t := by
  cases hr : s.rst with
  | true => exact ⟨_, clockEdge_of_reset p hr⟩
  | false =>
    obtain ⟨t, ht, -⟩ := runningEdge_legal p hs
    exact ⟨t, by rw [clockEdge_of_running p hr, ht]⟩

/-- Every event has a next state in a legal state. -/
theorem handleEvent_total (e : Event) {s : State} (hs : s.Legal) : ∃ t, handleEvent e s = .next t := by
  cases e with
  | rst level => exact ⟨_, rfl⟩
  | edge p => exact clockEdge_total p hs

/-- Settles O44: a step is one event, on a state as legal as this one, and the sequencer's edge
writes neither a flag nor the error response. -/
theorem legalStateNeverStops : Obligations.LegalStateNeverStops := by
  intro s hs
  refine ⟨?step, fun _ => ⟨tickEnd_total hs.legal, advance_total hs.legal⟩, ?noError⟩
  case step => exact handleEvent_total _ (hs.legal.congr rfl rfl rfl rfl rfl rfl rfl rfl rfl)
  case noError =>
    obtain ⟨q, hq, -⟩ := sequencerEdge_legal hs.legal
    have ho := sequencerEdge_sequencerOnly hq
    exact ⟨q, hq, ho.ipe, ho.ilc, ho.ovr, ho.err⟩

end Sys2Proof.Machine
end

/-! ### Reset (70_reset_and_hazards.md R108-R110)

The words a host reads of a reset block are fixed words, as no parameter reaches a register. While `rst` is 1 a legal
state is the reset state with the pin up, so letting the pin go leaves the reset state itself. -/

section
namespace Sys2Proof.Machine

/-- Every byte of the frame is 0 after reset. -/
theorem resetFor_frame_getElem (c : Config) {i : Nat} (hi : i < 15) : (State.resetFor c).frame[i] = 0x00#8 :=
  Vector.getElem_replicate hi

/-- STATUS after reset: only the FLEN field, with 15 in it, is not 0. -/
theorem statusWord_resetFor (c : Config) : statusWord (State.resetFor c) = 0x00000F00#32 := by
  simp [statusWord, State.resetFor, State.busy, Phase.code]

/-- PROGRESS after reset. -/
theorem progressWord_resetFor (c : Config) : progressWord (State.resetFor c) = 0x00000000#32 := by
  simp [progressWord, State.resetFor]

/-- Every FRAMEi reads 0 after reset; the aligned addresses from 0x40 to 0x78 are those of FRAME0 to FRAME14
(20_memory.md R33). -/
theorem memRead_resetFor_frame (c : Config) {a : BitVec 7} (halign : a.toNat % 4 = 0) (hlo : 0x40 ≤ a.toNat)
    (hhi : a.toNat ≤ 0x78) : memRead a (State.resetFor c) = 0x00000000#32 := by
  have hi : (a.toNat - 0x40) / 4 < 15 := by omega
  have ha : a.toNat = 0x40 + 4 * ((a.toNat - 0x40) / 4) := by omega
  rw [memRead_frame _ hi ha, resetFor_frame_getElem c hi, BitVec.setWidth_zero]

/-- Settles O40: each element's value stands in `State.resetFor`; FRAME and the words read are the lemmas above. -/
theorem resetValues : Obligations.ResetValues := by
  intro c
  refine ⟨fun i hi => resetFor_frame_getElem c hi, rfl, rfl, rfl, rfl, rfl, rfl, rfl, rfl, rfl, rfl, rfl, ?status,
    ?progress, fun a => memRead_resetFor_frame c, ?held⟩
  case status => rw [memRead_status, statusWord_resetFor]
  case progress => rw [memRead_progress, progressWord_resetFor]
  case held => rintro s rfl; exact ⟨assertReset_rdata s, assertReset_err s, rfl⟩

/-- When `rst` falls, a legal block is in its reset state, with whatever was still to come. -/
theorem State.Inv.setResetPin_false {s : State} (hs : s.Inv) (hr : s.rst = true) (es : List Event) :
    setResetPin false { s with events := es } = { State.resetFor s.cfg with events := es } := by
  have hheld : s = assertReset s := hs.reset_held hr
  calc setResetPin false { s with events := es }
      = { s with rst := false, events := es } := rfl
    _ = { assertReset s with rst := false, events := es } := by rw [← hheld]
    _ = { State.resetFor s.cfg with events := es } := rfl

/-- Settles O41: a rise of the pin and an edge in reset both put every element at its reset value, a fall leaves a
legal block there, and an edge out of reset is a running one. -/
theorem resetPinResetsAndHolds : Obligations.ResetPinResetsAndHolds := by
  refine ⟨?rise, ?hold, ?fall, ?normal⟩
  case rise => exact fun s rest hev => step_of_rst hev
  case hold =>
    intro s p rest hr hev
    rw [step_of_edge hev, clockEdge_of_reset p (s := { s with events := rest }) hr]
    rfl
  case fall =>
    intro s rest hs hr hev
    refine ⟨(State.resetFor s.cfg).rdata, (State.resetFor s.cfg).err, ?_⟩
    rw [step_of_rst hev, hs.setResetPin_false hr rest]
  case normal =>
    intro s p rest hr hev
    rw [step_of_edge hev, clockEdge_of_running p (s := { s with events := rest }) hr]

end Sys2Proof.Machine
end

/-! ### The invariant: at reset, and over every step (10_state.md R14-R20, 70_reset_and_hazards.md R108)

A step is a rise of `rst`, a fall of it, an edge in reset or a running edge. The first and the third leave the reset
state, which is legal; the second and the fourth leave a legal state with `rst` at 0. -/

section
namespace Sys2Proof.Machine

/-- The reset state is legal, for all legal parameters. -/
theorem resetFor_inv {c : Config} (hc : ConfigLegal c) : (State.resetFor c).Inv :=
  (State.Legal.of_idle (s := State.resetFor c) hc (by decide : (15#4) ≠ 0) rfl rfl rfl rfl rfl).inv rfl

/-- The state while `rst` is 1 is legal, whatever state the reset came in. -/
theorem assertReset_inv {s : State} (hc : ConfigLegal s.cfg) : (assertReset s).Inv := by
  obtain ⟨hcfg, hflen, hline, hpresc, hpidx, hlt, hidle, hucnt, -⟩ := resetFor_inv hc
  exact ⟨hcfg, hflen, hline, hpresc, hpidx, hlt, hidle, hucnt, fun _ => rfl⟩

/-- A change of the pin `rst` leaves a legal state legal (70_reset_and_hazards.md R108, R109). -/
theorem setResetPin_inv {s : State} (level : Bool) (hs : s.Legal) : (setResetPin level s).Inv := by
  cases level with
  | true => exact assertReset_inv hs.cfg_legal
  | false => exact (hs.congr (t := { s with rst := false }) rfl rfl rfl rfl rfl rfl rfl rfl rfl).inv rfl

/-- A clock edge, in reset or out of it, leaves a legal state legal. -/
theorem clockEdge_inv {p : PortPins} {s t : State} (hs : s.Legal) (h : clockEdge p s = .next t) : t.Inv := by
  cases hr : s.rst with
  | true =>
    rw [clockEdge_of_reset p hr] at h
    cases h
    exact assertReset_inv hs.cfg_legal
  | false =>
    obtain ⟨u, hu, hlegal, hrst, -⟩ := runningEdge_legal p hs
    rw [clockEdge_of_running p hr, hu] at h
    cases h
    exact hlegal.inv (hrst.trans hr)

/-- Settles O42: a step is one event, on a state whose elements are as legal as this one's. -/
theorem everyStepKeepsTheInvariant : Obligations.EveryStepKeepsTheInvariant := by
  intro s s' hs h
  have hlegal : ({ s with events := (nextEvent s.events).2 } : State).Legal :=
    hs.legal.congr rfl rfl rfl rfl rfl rfl rfl rfl rfl
  unfold step at h
  cases hev : (nextEvent s.events).1 with
  | rst level =>
    rw [hev] at h
    cases h
    exact setResetPin_inv level hlegal
  | edge p =>
    rw [hev] at h
    exact clockEdge_inv hlegal h

theorem defaultConfig_clkHz : defaultConfig.clkHz = 1000000 * (Config.clkMHzPred + 1) := rfl

/-- The default parameters are legal, at any positive number of MHz (00_scope.md R6). -/
theorem defaultConfig_legal : ConfigLegal defaultConfig where
  clk_pos := by rw [defaultConfig_clkHz]; omega
  clk_mul := by rw [defaultConfig_clkHz]; omega
  resetH_pos := by decide
  resetL_pos := by decide
  startH_pos := by decide
  startL_pos := by decide
  short_pos := by decide
  long_pos := by decide

/-- Settles O43: the reset state is at rest, and the default parameters are legal ones. -/
theorem resetMeetsTheInvariant : Obligations.ResetMeetsTheInvariant :=
  ⟨fun _ hc => resetFor_inv hc, resetFor_inv defaultConfig_legal⟩

end Sys2Proof.Machine
end

/-! ### The decoder and the encoder (30_encoding.md R46-R60)

An accepted word is its OP field, its operand fields at their places and zeros elsewhere, which is the number `encode`
forms; and the slices of that number are the operands again. -/

section
namespace Sys2Proof

/-! #### Encoding -/

/-- The operands of a well-formed command fit below the OP field. -/
theorem operands_lt {i : Instr} (h : i.wellFormed = true) : i.operands < 2 ^ 28 := by
  cases i with
  | nop => decide
  | wrfield pos width value =>
    simp only [Instr.wellFormed, Bool.and_eq_true, decide_eq_true_eq] at h
    simp only [Instr.operands]
    omega
  | ldtpl tpl => cases tpl <;> decide
  | clear len =>
    simp only [Instr.wellFormed, decide_eq_true_eq] at h
    simp only [Instr.operands]
    omega
  | xmit trail => cases trail <;> decide
  | zone z m =>
    simp only [Instr.wellFormed, Bool.and_eq_true, decide_eq_true_eq] at h
    simp only [Instr.operands]
    omega
  | prog p =>
    simp only [Instr.wellFormed, decide_eq_true_eq] at h
    simp only [Instr.operands]
    omega

/-- A slice of a well-formed command's word is the slice of its number. -/
theorem field_encode {i : Instr} (h : i.wellFormed = true) (hi lo : Nat) :
    field (encode i) hi lo = (i.opcode * 2 ^ 28 + i.operands) / 2 ^ lo % 2 ^ (hi + 1 - lo) := by
  rw [field, toNat_encode i (operands_lt h)]

theorem templateOfBit_bit (tpl : Template) : templateOfBit tpl.bit = tpl := by
  cases tpl <;> rfl

/-- The words without operands, and those with one operand bit, are five in all: each is decoded by evaluation. -/
theorem decode_encode_of_bits :
    decode (encode .nop) = .ok .nop ∧ (∀ tpl, decode (encode (.ldtpl tpl)) = .ok (.ldtpl tpl)) ∧
      ∀ trail, decode (encode (.xmit trail)) = .ok (.xmit trail) := by
  refine ⟨by decide, fun tpl => ?_, fun trail => ?_⟩
  · cases tpl <;> decide
  · cases trail <;> decide

theorem decode_encode_wrfield {pos width value : Nat} (h : (Instr.wrfield pos width value).wellFormed = true) :
    decode (encode (.wrfield pos width value)) = .ok (.wrfield pos width value) := by
  have hfield := field_encode h
  simp only [Instr.wellFormed, Bool.and_eq_true, decide_eq_true_eq] at h
  simp only [Instr.opcode, Instr.operands] at hfield
  have hop : field (encode (.wrfield pos width value)) 31 28 = 1 := by rw [hfield]; omega
  have hhigh : field (encode (.wrfield pos width value)) 27 23 = 0 := by rw [hfield]; omega
  have hpos : field (encode (.wrfield pos width value)) 22 16 = pos := by rw [hfield]; omega
  have hmid : field (encode (.wrfield pos width value)) 15 11 = 0 := by rw [hfield]; omega
  have hwidth : field (encode (.wrfield pos width value)) 10 8 = width := by rw [hfield]; omega
  have hvalue : field (encode (.wrfield pos width value)) 7 0 = value := by rw [hfield]; omega
  simp only [decode, hop, hhigh, hpos, hmid, hwidth, hvalue]
  exact orReserved_of_true _ rfl

theorem decode_encode_clear {len : Nat} (h : (Instr.clear len).wellFormed = true) :
    decode (encode (.clear len)) = .ok (.clear len) := by
  have hfield := field_encode h
  simp only [Instr.wellFormed, decide_eq_true_eq] at h
  simp only [Instr.opcode, Instr.operands] at hfield
  have hop : field (encode (.clear len)) 31 28 = 3 := by rw [hfield]; omega
  have hzero : field (encode (.clear len)) 27 4 = 0 := by rw [hfield]; omega
  have hlen : field (encode (.clear len)) 3 0 = len := by rw [hfield]; omega
  simp only [decode, hop, hzero, hlen]
  exact orReserved_of_true _ rfl

theorem decode_encode_zone {z m : Nat} (h : (Instr.zone z m).wellFormed = true) :
    decode (encode (.zone z m)) = .ok (.zone z m) := by
  have hfield := field_encode h
  simp only [Instr.wellFormed, Bool.and_eq_true, decide_eq_true_eq] at h
  simp only [Instr.opcode, Instr.operands] at hfield
  have hop : field (encode (.zone z m)) 31 28 = 5 := by rw [hfield]; omega
  have hzero : field (encode (.zone z m)) 27 16 = 0 := by rw [hfield]; omega
  have hz : field (encode (.zone z m)) 7 0 = z := by rw [hfield]; omega
  have hm : field (encode (.zone z m)) 15 8 = m := by rw [hfield]; omega
  simp only [decode, hop, hzero, hz, hm]
  exact orReserved_of_true _ rfl

theorem decode_encode_prog {p : Nat} (h : (Instr.prog p).wellFormed = true) :
    decode (encode (.prog p)) = .ok (.prog p) := by
  have hfield := field_encode h
  simp only [Instr.wellFormed, decide_eq_true_eq] at h
  simp only [Instr.opcode, Instr.operands] at hfield
  have hop : field (encode (.prog p)) 31 28 = 6 := by rw [hfield]; omega
  have hzero : field (encode (.prog p)) 27 8 = 0 := by rw [hfield]; omega
  have hp : field (encode (.prog p)) 7 0 = p := by rw [hfield]; omega
  simp only [decode, hop, hzero, hp]
  exact orReserved_of_true _ rfl

/-- Settles O1: in each format the slices of the command's number are its opcode, zeros in the reserved fields, and its
operands. -/
theorem decodeUndoesEncode : Obligations.DecodeUndoesEncode := by
  intro i hi
  obtain ⟨hnop, hldtpl, hxmit⟩ := decode_encode_of_bits
  cases i with
  | nop => exact hnop
  | wrfield pos width value => exact decode_encode_wrfield hi
  | ldtpl tpl => exact hldtpl tpl
  | clear len => exact decode_encode_clear hi
  | xmit trail => exact hxmit trail
  | zone z m => exact decode_encode_zone hi
  | prog p => exact decode_encode_prog hi

/-! #### Accepted words -/

/-- A one-bit field read as a template gives the bit back. -/
theorem bit_templateOfBit {b : Nat} (h : b < 2) : (templateOfBit b).bit = b := by
  interval_cases b <;> rfl

/-- A one-bit field read as a truth value gives the bit back. -/
theorem toNat_beq_one {b : Nat} (h : b < 2) : (b == 1).toNat = b := by
  interval_cases b <;> rfl

/-- An accepted word's number is its command's. -/
theorem opcode_operands_of_decode {w : Word} {i : Instr} (h : decode w = .ok i) :
    i.opcode * 2 ^ 28 + i.operands = w.toNat := by
  have hw := w.isLt
  have hbit : field w 0 0 < 2 := field_lt w 0 0
  unfold decode at h
  split at h
  case h_1 hop =>
    obtain ⟨hzero, rfl⟩ := orReserved_eq_ok h
    rw [(field_below_op_eq_zero_iff hop).1 (beq_iff_eq.1 hzero)]
    rfl
  case h_8 => cases h
  all_goals
    rename_i hop
    obtain ⟨hzero, rfl⟩ := orReserved_eq_ok h
    simp only [Instr.opcode, Instr.operands, bit_templateOfBit hbit, toNat_beq_one hbit]
    simp only [Bool.and_eq_true, beq_iff_eq, field] at hop hzero ⊢
    omega

theorem encode_of_decode {w : Word} {i : Instr} (h : decode w = .ok i) : encode i = w :=
  encode_eq_of_toNat (opcode_operands_of_decode h)

/-- Settles O2: the reserved fields of an accepted word are zero, so its number is the command's. -/
theorem encodeUndoesDecode : Obligations.EncodeUndoesDecode :=
  fun _ _ h => ⟨wellFormed_of_decode h, encode_of_decode h⟩

/-! #### Illegal words -/

/-- A bit of a field is that bit of the word. -/
theorem testBit_field (w : Word) {hi lo k : Nat} (hlo : lo ≤ k) (hhi : k ≤ hi) :
    (field w hi lo).testBit (k - lo) = w.getLsbD k := by
  have hin : k - lo < hi + 1 - lo := by omega
  rw [field, Nat.testBit_mod_two_pow, Nat.testBit_div_two_pow, Nat.sub_add_cancel hlo, decide_eq_true hin,
    Bool.true_and]
  rfl

/-- A word fits a format if each field the mask keeps, given by its ends and its value, holds the match's bits. -/
theorem masked_of_fields {w mask value : Word} (fields : List (Nat × Nat × Nat))
    (h : ∀ p ∈ fields, field w p.1 p.2.1 = p.2.2)
    (hkept : ∀ k < 32, mask.getLsbD k = true →
      ∃ p ∈ fields, p.2.1 ≤ k ∧ k ≤ p.1 ∧ p.2.2.testBit (k - p.2.1) = value.getLsbD k)
    (hdropped : ∀ k < 32, mask.getLsbD k = false → value.getLsbD k = false) :
    w &&& mask = value := by
  apply BitVec.eq_of_getLsbD_eq
  intro k hk
  rw [BitVec.getLsbD_and]
  cases hmask : mask.getLsbD k with
  | true =>
    obtain ⟨p, hp, hlo, hhi, hvalue⟩ := hkept k hk hmask
    rw [Bool.and_true, ← testBit_field w hlo hhi, h p hp, hvalue]
  | false => rw [hdropped k hk hmask, Bool.and_false]

/-- The mask and the match of each command's format (30_encoding.md R48-R54). -/
def Instr.format : Instr → Word × Word
  | .nop => (0xFFFFFFFF, 0x00000000)
  | .wrfield _ _ _ => (0xFF80F800, 0x10000000)
  | .ldtpl _ => (0xFFFFFFFE, 0x20000000)
  | .clear _ => (0xFFFFFFF0, 0x30000000)
  | .xmit _ => (0xFFFFFFFE, 0x40000000)
  | .zone _ _ => (0xFFFF0000, 0x50000000)
  | .prog _ => (0xFFFFFF00, 0x60000000)

/-- The fields each command's format fixes, by their ends and their value: the OP field and the reserved fields
(30_encoding.md R48-R54). -/
def Instr.fixedFields : Instr → List (Nat × Nat × Nat)
  | .nop => [(31, 28, 0), (27, 0, 0)]
  | .wrfield _ _ _ => [(31, 28, 1), (27, 23, 0), (15, 11, 0)]
  | .ldtpl _ => [(31, 28, 2), (27, 1, 0)]
  | .clear _ => [(31, 28, 3), (27, 4, 0)]
  | .xmit _ => [(31, 28, 4), (27, 1, 0)]
  | .zone _ _ => [(31, 28, 5), (27, 16, 0)]
  | .prog _ => [(31, 28, 6), (27, 8, 0)]

/-- An accepted word holds its format's values in the fixed fields. -/
theorem fixedFields_of_decode {w : Word} {i : Instr} (h : decode w = .ok i) :
    ∀ p ∈ i.fixedFields, field w p.1 p.2.1 = p.2.2 := by
  unfold decode at h
  split at h
  case h_8 => cases h
  all_goals
    rename_i hop
    obtain ⟨hzero, rfl⟩ := orReserved_eq_ok h
    simpa [Instr.fixedFields, hop] using hzero

/-- An accepted word fits its command's format: the mask keeps the fixed fields and no other bit. -/
theorem masked_of_decode {w : Word} {i : Instr} (h : decode w = .ok i) : w &&& i.format.1 = i.format.2 := by
  apply masked_of_fields i.fixedFields (fixedFields_of_decode h)
  case hkept =>
    cases i with
    | nop | wrfield | ldtpl | clear | xmit | zone | prog =>
      simp only [Instr.format, Instr.fixedFields]
      decide
  case hdropped =>
    cases i with
    | nop | wrfield | ldtpl | clear | xmit | zone | prog =>
      simp only [Instr.format]
      decide

theorem orReserved_ok_or_error (op : Nat) (b : Bool) (i : Instr) :
    (∃ j, orReserved op b i = .ok j) ∨ orReserved op b i = .error (.reservedBitSet op) := by
  cases b with
  | true => exact .inl ⟨i, rfl⟩
  | false => exact .inr rfl

/-- Below the reserved opcodes a word is accepted or has a reserved bit set (30_encoding.md R57). -/
theorem decode_of_op_lt {w : Word} (h : field w 31 28 < 7) :
    (∃ i, decode w = .ok i) ∨ decode w = .error (.reservedBitSet (field w 31 28)) := by
  interval_cases hop : field w 31 28
  all_goals
    simp only [decode, hop]
    exact orReserved_ok_or_error _ _ _

/-- The opcodes 0x7..0xF are reserved (30_encoding.md R56). -/
theorem decode_of_op_ge {w : Word} (h : 7 ≤ field w 31 28) :
    decode w = .error (.reservedOpcode (field w 31 28)) := by
  unfold decode
  split
  case h_8 => rfl
  all_goals omega

/-- Settles O4: below the reserved opcodes a word is accepted or has a reserved bit set, and an accepted word fits its
command's format. -/
theorem otherWordsAreIllegal : Obligations.OtherWordsAreIllegal := by
  intro w
  rw [← field_eq_extractLsb w 31 28 (by decide)]
  refine ⟨decode_of_op_ge, fun hop hnop hwrfield hldtpl hclear hxmit hzone hprog => ?_⟩
  rcases decode_of_op_lt hop with ⟨i, hi⟩ | hreserved
  case inr => exact hreserved
  have hfits := masked_of_decode hi
  cases i with
  | nop => exact absurd ((decode_eq_ok_nop_iff w).1 hi) hnop
  | wrfield pos width value => exact absurd hfits hwrfield
  | ldtpl tpl => exact absurd hfits hldtpl
  | clear len => exact absurd hfits hclear
  | xmit trail => exact absurd hfits hxmit
  | zone z m => exact absurd hfits hzone
  | prog p => exact absurd hfits hprog

/-! #### Sample words and the assembler -/

/-- Settles O5: each word is decoded by evaluation. -/
theorem sampleWordsDecode : Obligations.SampleWordsDecode := by
  refine ⟨?nop, ?wrfield, ?ldtpl, ?clear, ?xmit, ?zone, ?prog, ?bit0, ?bit23, ?op15⟩
  all_goals decide

/-- Settles O6: the assembler's word for a well-formed command is its encoding, and it has none for another. -/
theorem assembledCommandIsItsWord : Obligations.AssembledCommandIsItsWord := by
  intro i
  refine ⟨fun h => ⟨encode i, if_pos h, decodeUndoesEncode i h⟩, fun h => if_neg ?_⟩
  rw [h]
  exact Bool.false_ne_true

end Sys2Proof
end

/-! ### The commands: busy and idle, the flags, the frame (40_frame_builder.md, 43_control.md, 60_exceptions.md)

Every command is the BUSY check, then its operand check if it has one, then its effect. The two checks look at no flag
and raise at most one, and no effect writes any. -/

section
namespace Sys2Proof.Machine

/-! #### The shape of a command -/

/-- `s` with other error flags. -/
def State.withFlags (s : State) (a b c : Bool) : State :=
  { s with ipe := a, ilc := b, ovr := c }

/-- Every command is the BUSY check, an operand check (which NOP, LDTPL and XMIT always pass) and an effect; the operand
check does not look at the flags, and the effect carries them along. -/
theorem exec_eq_checks (i : Instr) : ∃ (legal : State → Bool) (effect : State → State),
    (∀ s, exec i s = whenIdle s fun s => checked (legal s) s fun s => .next (effect s)) ∧
    ∀ s a b c, legal (s.withFlags a b c) = legal s ∧ effect (s.withFlags a b c) = (effect s).withFlags a b c := by
  cases i with
  | nop => exact ⟨fun _ => true, id, fun _ => rfl, fun _ _ _ _ => ⟨rfl, rfl⟩⟩
  | wrfield pos width value =>
    exact ⟨fun s => fieldLegal pos width s.flen,
      fun s => { s with frame := writeField s.cfg.fieldOrder pos value width s.frame },
      fun _ => rfl, fun _ _ _ _ => ⟨rfl, rfl⟩⟩
  | ldtpl tpl =>
    exact ⟨fun _ => true, fun s => loadFrame (templateFrame s.cfg tpl) (templateLength tpl) s,
      fun _ => rfl, fun _ _ _ _ => ⟨rfl, rfl⟩⟩
  | clear len => exact ⟨fun _ => lenLegal len, loadFrame zeroFrame len, fun _ => rfl, fun _ _ _ _ => ⟨rfl, rfl⟩⟩
  | xmit trail => exact ⟨fun _ => true, startTx trail, fun _ => rfl, fun _ _ _ _ => ⟨rfl, rfl⟩⟩
  | zone z m =>
    exact ⟨fun _ => zoneLegal z m, fun s => startTx true (loadFrame (zoneFrame s.cfg z m) 15 s),
      fun _ => rfl, fun _ _ _ _ => ⟨rfl, rfl⟩⟩
  | prog p =>
    exact ⟨fun _ => progLegal p, fun s => startTx false (loadFrame (progFrame s.cfg p) 7 s),
      fun _ => rfl, fun _ _ _ _ => ⟨rfl, rfl⟩⟩

/-- Settles O10: each command begins with the BUSY check. -/
theorem busyRejectsEveryCommand : Obligations.BusyRejectsEveryCommand := by
  intro i s hb
  obtain ⟨legal, effect, hexec, -⟩ := exec_eq_checks i
  rw [hexec, whenIdle_of_busy _ hb]

/-- Settles O11: a busy block raises OVR, a failed operand check IPE, and an effect carries the flags along. -/
theorem flagsBlockNoCommand : Obligations.FlagsBlockNoCommand := by
  intro i s a b c
  obtain ⟨legal, effect, hexec, hflags⟩ := exec_eq_checks i
  obtain ⟨hlegal, heffect⟩ := hflags s a b c
  have hbusy : (s.withFlags a b c).busy = s.busy := rfl
  change ∃ t a' b' c', exec i s = .next t ∧ exec i (s.withFlags a b c) = .next (t.withFlags a' b' c') ∧ _
  rw [hexec, hexec]
  cases hb : s.busy with
  | true =>
    rw [whenIdle_of_busy _ hb, whenIdle_of_busy _ (hbusy.trans hb)]
    exact ⟨_, a, b, true, rfl, rfl, id, id, fun _ => rfl⟩
  | false =>
    rw [whenIdle_of_idle _ hb, whenIdle_of_idle _ (hbusy.trans hb), hlegal]
    cases legal s with
    | false => exact ⟨_, true, b, c, rfl, rfl, fun _ => rfl, id, id⟩
    | true =>
      rw [checked_of_legal _ rfl, checked_of_legal _ rfl, heffect]
      exact ⟨_, a, b, c, rfl, rfl, id, id, id⟩

/-! #### The frame builder -/

theorem fieldLegal_eq_false_iff (pos width : Nat) (flen : BitVec 4) :
    fieldLegal pos width flen = false ↔ width = 0 ∨ 8 * flen.toNat < pos + width := by
  rw [← Bool.not_eq_true, fieldLegal_eq_true_iff]
  omega

/-- Settles O14: such a field fails WRFIELD's check, which raises IPE before anything is written. -/
theorem wrfieldOutsideTheFrameSetsIpe : Obligations.WrfieldOutsideTheFrameSetsIpe := by
  intro s pos width value hb hbad
  have hillegal := (fieldLegal_eq_false_iff pos width s.flen).2 hbad
  simp only [exec, execWrfield, whenIdle_of_idle _ hb, checked_of_illegal _ hillegal]

/-- The program template's bytes stand at the front of its frame (40_frame_builder.md R65). -/
theorem templateFrame_program_getElem (c : Config) {i : Nat} (hi : i < 7) :
    (templateFrame c .program)[i] = c.progTemplate[i] := by
  simp [templateFrame, hi]

/-- Past its 7 bytes a program template's frame is zero (40_frame_builder.md R65). -/
theorem templateFrame_program_getElem_of_ge (c : Config) {i : Nat} (hi : i < 15) (h7 : 7 ≤ i) :
    (templateFrame c .program)[i] = 0x00#8 := by
  have : ¬ i < 7 := by omega
  simp [templateFrame, this]

/-- LDTPL in an idle block loads its template's frame and length and does nothing else. -/
theorem exec_ldtpl_of_idle {s : State} (tpl : Template) (hb : s.busy = false) :
    exec (.ldtpl tpl) s = .next (loadFrame (templateFrame s.cfg tpl) (templateLength tpl) s) := by
  simp only [exec, execLdtpl, whenIdle_of_idle _ hb]

/-- Settles O15: the command is one `loadFrame` of the template's frame, whose bytes are the template's, then zeros. -/
theorem ldtplLoadsTheTemplate : Obligations.LdtplLoadsTheTemplate := by
  intro s hb
  exact ⟨exec_ldtpl_of_idle .zone hb, templateFrame s.cfg .program, exec_ldtpl_of_idle .program hb,
    fun i hi => templateFrame_program_getElem s.cfg hi,
    fun i hi h7 => templateFrame_program_getElem_of_ge s.cfg hi h7⟩

/-- CLEAR of a length other than 0 in an idle block loads the zero frame and does nothing else. -/
theorem exec_clear_of_idle {s : State} {len : Nat} (hb : s.busy = false) (hlen : 1 ≤ len) :
    exec (.clear len) s = .next (loadFrame zeroFrame len s) := by
  have hlegal : lenLegal len = true := bne_iff_ne.2 (by omega)
  simp only [exec, execClear, whenIdle_of_idle _ hb, checked_of_legal _ hlegal]

/-- Settles O16: a length from 1 to 15 fits FLEN, and length 0 fails CLEAR's check. -/
theorem clearZeroesTheFrame : Obligations.ClearZeroesTheFrame := by
  intro s hb
  refine ⟨fun len h1 h15 => ⟨_, exec_clear_of_idle hb h1, ?length, fun o _ => fbit_zeroFrame o, rfl⟩, ?zero⟩
  case length =>
    rw [loadFrame_flen, BitVec.toNat_ofNat]
    omega
  case zero =>
    have hillegal : lenLegal 0 = false := rfl
    simp only [exec, execClear, whenIdle_of_idle _ hb, checked_of_illegal _ hillegal]

/-- Settles O17: in an idle block XMIT is StartTx. -/
theorem xmitStartsATransmission : Obligations.XmitStartsATransmission := by
  intro s trail hb
  simp only [exec, execXmit, whenIdle_of_idle _ hb]
  rfl

/-! #### Fields read back, and PROG's frame -/

/-- Settles O25: the bits WriteField wrote are the value's, each at the place FIELD_ORDER gives it. -/
theorem readFieldUndoesWriteField : Obligations.ReadFieldUndoesWriteField := by
  intro order pos value width f hend
  apply readField_of_valueBit
  intro j hj
  have hin : pos ≤ pos + j ∧ pos + j < pos + width := by omega
  rw [fbit_writeField order pos value width f _ hend, if_pos hin, Nat.add_sub_cancel_left]

/-- A valid PROG in an idle block loads the program frame and starts its transmission. -/
theorem exec_prog_of_legal {s : State} {p : Nat} (hb : s.busy = false) (h : progLegal p = true) :
    exec (.prog p) s = .next (startTx false (loadFrame (progFrame s.cfg p) 7 s)) := by
  simp only [exec, execProg, whenIdle_of_idle _ hb, checked_of_legal _ h]

/-- A program frame is one field written into the template's frame. -/
theorem progFrame_eq (c : Config) (p : Nat) :
    progFrame c p = writeField c.fieldOrder 31 (p - 1) 2 (templateFrame c .program) := rfl

/-- Outside its field a program frame's bits are the template's. -/
theorem fbit_progFrame_outside (c : Config) (p : Nat) {o : Nat} (h31 : o ≠ 31) (h32 : o ≠ 32) :
    fbit (progFrame c p) o = fbit (templateFrame c .program) o := by
  rw [progFrame_eq, fbit_writeField _ _ _ _ _ _ (by decide), if_neg (by omega)]

/-- Settles O22: the frame is the program number's field written into the template's frame. -/
theorem progBuildsAndSendsItsFrame : Obligations.ProgBuildsAndSendsItsFrame := by
  intro s p hb h1 h4
  refine ⟨progFrame s.cfg p, ?effect, ?field, ?template, ?zero⟩
  case effect =>
    rw [exec_prog_of_legal hb ((progLegal_eq_true_iff p).2 ⟨h1, h4⟩), startTx_loadFrame]
    rfl
  case field =>
    rw [progFrame_eq, readFieldUndoesWriteField _ _ _ _ _ (by decide)]
    exact Nat.mod_eq_of_lt (by omega)
  case template =>
    intro o ho h31 h32
    have hbyte : o / 8 < 7 := by omega
    rw [fbit_progFrame_outside s.cfg p h31 h32, fbit, frameByte_of_lt _ _ (by omega),
      templateFrame_program_getElem s.cfg hbyte, getElem!_pos s.cfg.progTemplate (o / 8) hbyte]
  case zero =>
    intro o ho h56
    rw [fbit_progFrame_outside s.cfg p (by omega) (by omega), fbit, frameByte_of_lt _ _ (by omega),
      templateFrame_program_getElem_of_ge s.cfg (by omega) (by omega), BitVec.getLsbD_zero]

end Sys2Proof.Machine
end

/-! ### The STATUS and PROGRESS words (10_state.md R24, R25)

Each word is a sum of fields at their places, so a field is read back by dividing off the fields below it and cutting
off those above. -/

section
namespace Sys2Proof.Machine

/-- A bit of a number's word. -/
theorem getLsbD_ofNat_of_div_mod {n k : Nat} {b : Bool} (hk : k < 32) (h : n / 2 ^ k % 2 = b.toNat) :
    (BitVec.ofNat 32 n).getLsbD k = b := by
  rw [BitVec.getLsbD_ofNat, decide_eq_true hk, Bool.true_and, Nat.testBit_eq_decide_div_mod_eq, h]
  cases b <;> rfl

/-- A field of a number's word. -/
theorem extractLsb_ofNat {n hi lo : Nat} (hn : n < 2 ^ 32) :
    ((BitVec.ofNat 32 n).extractLsb hi lo).toNat = n / 2 ^ lo % 2 ^ (hi - lo + 1) := by
  rw [BitVec.extractLsb_toNat, BitVec.toNat_ofNat, Nat.mod_eq_of_lt hn, Nat.shiftRight_eq_div_pow]

/-- A number's word has no bit at or above the number's length. -/
theorem getLsbD_ofNat_of_lt {n j k : Nat} (hn : n < 2 ^ j) (hk : j ≤ k) : (BitVec.ofNat 32 n).getLsbD k = false := by
  have hlt : n < 2 ^ k := hn.trans_le (Nat.pow_le_pow_right (by decide) hk)
  rw [BitVec.getLsbD_ofNat, Nat.testBit_lt_two_pow hlt, Bool.and_false]

/-- The number whose word STATUS is. -/
def statusNat (s : State) : Nat :=
  s.busy.toNat + s.line.toNat * 2 ^ 1 + s.phase.code * 2 ^ 4 + s.flen.toNat * 2 ^ 8 + s.trail.toNat * 2 ^ 12
    + s.ipe.toNat * 2 ^ 16 + s.ilc.toNat * 2 ^ 17 + s.ovr.toNat * 2 ^ 18

theorem statusWord_eq (s : State) : statusWord s = BitVec.ofNat 32 (statusNat s) := rfl

theorem code_lt (p : Phase) : p.code < 8 := by
  cases p <;> decide

/-- Each field of STATUS as a part of its number, and what lies between and above the fields. -/
theorem statusNat_fields (s : State) :
    statusNat s / 2 ^ 0 % 2 = s.busy.toNat ∧ statusNat s / 2 ^ 1 % 2 = s.line.toNat ∧
    statusNat s / 2 ^ 2 % 4 = 0 ∧ statusNat s / 2 ^ 4 % 8 = s.phase.code ∧ statusNat s / 2 ^ 7 % 2 = 0 ∧
    statusNat s / 2 ^ 8 % 16 = s.flen.toNat ∧ statusNat s / 2 ^ 12 % 2 = s.trail.toNat ∧
    statusNat s / 2 ^ 13 % 8 = 0 ∧ statusNat s / 2 ^ 16 % 2 = s.ipe.toNat ∧
    statusNat s / 2 ^ 17 % 2 = s.ilc.toNat ∧ statusNat s / 2 ^ 18 % 2 = s.ovr.toNat ∧ statusNat s < 2 ^ 19 := by
  have hbusy := s.busy.toNat_lt
  have hline := s.line.toNat_lt
  have hcode := code_lt s.phase
  have hflen := s.flen.isLt
  have htrail := s.trail.toNat_lt
  have hipe := s.ipe.toNat_lt
  have hilc := s.ilc.toNat_lt
  have hovr := s.ovr.toNat_lt
  unfold statusNat
  omega

/-- Settles O26: each field is the part of the number that stands at its place. -/
theorem statusWordHasTheStatusFields : Obligations.StatusWordHasTheStatusFields := by
  intro s
  obtain ⟨hbusy, hline, hres2, hphase, hres7, hflen, htrail, hres13, hipe, hilc, hovr, hlt⟩ := statusNat_fields s
  have hlt32 : statusNat s < 2 ^ 32 := hlt.trans (by decide)
  rw [statusWord_eq]
  refine ⟨getLsbD_ofNat_of_div_mod (by decide) hbusy, busy_eq_true_iff s, getLsbD_ofNat_of_div_mod (by decide) hline,
    ?phase, ?flen, getLsbD_ofNat_of_div_mod (by decide) htrail, getLsbD_ofNat_of_div_mod (by decide) hipe,
    getLsbD_ofNat_of_div_mod (by decide) hilc, getLsbD_ofNat_of_div_mod (by decide) hovr, ?reserved⟩
  case phase =>
    rw [extractLsb_ofNat hlt32]
    refine hphase.trans ?_
    cases s.phase <;> rfl
  case flen => exact BitVec.eq_of_toNat_eq ((extractLsb_ofNat hlt32).trans hflen)
  case reserved =>
    rintro k (hk | hk)
    · have hbit : k < 32 ∧ statusNat s / 2 ^ k % 2 = 0 := by
        simp only [List.mem_cons, List.not_mem_nil, or_false] at hk
        obtain rfl | rfl | rfl | rfl | rfl | rfl := hk <;> omega
      exact getLsbD_ofNat_of_div_mod hbit.1 hbit.2
    · exact getLsbD_ofNat_of_lt hlt hk

/-- Settles O27: PIDX is below 2^8 and UCNT below 2^19, so the sum holds them side by side. -/
theorem progressWordHasItsFields : Obligations.ProgressWordHasItsFields := by
  intro s
  have hpidx := s.pidx.isLt
  have hucnt := s.ucnt.isLt
  have hlt : s.pidx.toNat + s.ucnt.toNat * 2 ^ 8 < 2 ^ 27 := by omega
  have hlt32 : s.pidx.toNat + s.ucnt.toNat * 2 ^ 8 < 2 ^ 32 := hlt.trans (by decide)
  refine ⟨BitVec.eq_of_toNat_eq ?pidx, BitVec.eq_of_toNat_eq ?ucnt, fun k hk => getLsbD_ofNat_of_lt hlt hk⟩
  case pidx =>
    refine (extractLsb_ofNat hlt32).trans ?_
    omega
  case ucnt =>
    refine (extractLsb_ofNat hlt32).trans ?_
    omega

end Sys2Proof.Machine
end

/-! ### Writes, commands through the port, and edges without an access (20_memory.md R31-R36, 43_control.md R91)

Outside a command that an idle block accepts, and a frame write to an idle block, an access changes at most the flags
and the port's answer: all the rest is what the sequencer's edge leaves. -/

section
namespace Sys2Proof.Machine

/-! #### What a write does -/

/-- CMD is one address (20_memory.md R33). -/
theorem eq_of_registerAt_cmd {a : BitVec 7} (h : registerAt a = .cmd) : a = 0x00#7 := by
  unfold registerAt at h
  split_ifs at h with h0
  exact BitVec.eq_of_toNat_eq h0

/-- STATUS is one address (20_memory.md R33). -/
theorem eq_of_registerAt_status {a : BitVec 7} (h : registerAt a = .status) : a = 0x04#7 := by
  unfold registerAt at h
  split_ifs at h with h0 h4
  exact BitVec.eq_of_toNat_eq h4

@[simp] theorem memWrite_cmd (v : Word) (s : State) : memWrite 0x00#7 v s = issueCommand v s := rfl
@[simp] theorem memWrite_status (v : Word) (s : State) : memWrite 0x04#7 v s = .next (clearFlags v s) := rfl
@[simp] theorem memWrite_progress (v : Word) (s : State) : memWrite 0x08#7 v s = .next s := rfl

theorem memWrite_frame {a : BitVec 7} {i : Nat} (v : Word) (s : State) (hi : i < 15) (ha : a.toNat = 0x40 + 4 * i) :
    memWrite a v s = .next (writeFrameByte i v s) := by
  simp only [memWrite, registerAt_frame hi ha]

theorem memWrite_unmapped {a : BitVec 7} (v : Word) (s : State)
    (ha : 0x0C ≤ a.toNat ∧ a.toNat ≤ 0x3C ∨ a.toNat = 0x7C) : memWrite a v s = .next s := by
  simp only [memWrite, registerAt_unmapped ha]

theorem writeFrameByte_of_busy (i : Nat) (v : Word) {s : State} (hb : s.busy = true) :
    writeFrameByte i v s = { s with ovr := true } :=
  if_pos hb

theorem writeFrameByte_of_idle {i : Nat} (v : Word) {s : State} (hb : s.busy = false) (hi : i < 15) :
    writeFrameByte i v s = { s with frame := s.frame.set i (v.extractLsb' 0 8) } := by
  have hset : s.frame.setIfInBounds i (v.extractLsb' 0 8) = s.frame.set i (v.extractLsb' 0 8) := by
    apply Vector.ext
    intro j hj
    rw [Vector.getElem_setIfInBounds, Vector.getElem_set]
  simp [writeFrameByte, hb, BitVec.setWidth_eq_extractLsb', hset]

theorem issueCommand_of_busy (w : Word) {s : State} (hb : s.busy = true) :
    issueCommand w s = .next { s with ovr := true } :=
  if_pos hb

theorem issueCommand_of_ok {w : Word} {i : Instr} {s : State} (hb : s.busy = false) (h : decode w = .ok i) :
    issueCommand w s = exec i s := by
  simp [issueCommand, hb, h]

theorem issueCommand_of_error {w : Word} {e : DecodeError} {s : State} (hb : s.busy = false)
    (h : decode w = .error e) : issueCommand w s = .next { s with ilc := true } := by
  simp [issueCommand, hb, h]

/-- The access of a full-word write to an aligned address. -/
theorem portAccess_writePins {a : BitVec 7} (v : Word) (s : State) (ha : a.toNat % 4 = 0) :
    portAccess ⟨true, true, a, 0b1111#4, v⟩ s = mapNext (respond none) (memWrite a v s) :=
  portAccess_write s rfl rfl ((accessLegal_eq_true_iff _).2 ⟨rfl, ha⟩)

/-- The access of a full-word write to CMD. -/
theorem portAccess_cmd (w : Word) (s : State) :
    portAccess ⟨true, true, 0x00#7, 0b1111#4, w⟩ s = mapNext (respond none) (issueCommand w s) :=
  portAccess_writePins w s rfl

/-! #### A command in an idle block (43_control.md R91) -/

/-- A step that writes a word to CMD of an idle block. -/
theorem step_idle_cmd {s : State} {w : Word} {rest : List Event} (hr : s.rst = false) (hb : s.busy = false)
    (hev : s.events = .edge ⟨true, true, 0x00#7, 0b1111#4, w⟩ :: rest) :
    step s = mapNext (respond none) (issueCommand w { s with events := rest }) := by
  rw [step_idle_edge hev hr hb, portAccess_cmd]

/-- Settles O7: in an idle block the access is the edge, and its word is issued as the command it decodes to. -/
theorem stepRunsTheDecodedCommand : Obligations.StepRunsTheDecodedCommand := by
  intro s w i rest hr hb hev hw
  rw [step_idle_cmd hr hb hev, issueCommand_of_ok (s := { s with events := rest }) hb hw]
  cases exec i { s with events := rest } <;> rfl

/-- Settles O8: in an idle block the access is the edge, and an illegal word raises ILC. -/
theorem illegalWordSetsIlcOnly : Obligations.IllegalWordSetsIlcOnly := by
  intro s w e rest hr hb hev hw
  rw [step_idle_cmd hr hb hev, issueCommand_of_error (s := { s with events := rest }) hb hw]
  rfl

/-! #### Accesses that change no more than the flags -/

/-- A step whose access changes no more than the flags and the port's answer is the sequencer's edge with those. -/
theorem step_of_flags {s q : State} {p : PortPins} {rest : List Event} {a b c : Bool} {d : Option Word} {e : Bool}
    (hr : s.rst = false) (hev : s.events = .edge p :: rest) (hq : sequencerEdge { s with events := rest } = .next q)
    (ha : portAccess p { s with events := rest } =
      .next { s with events := rest, ipe := a, ilc := b, ovr := c, rdata := d, err := e }) :
    step s = .next { q with ipe := a, ilc := b, ovr := c, rdata := d, err := e } := by
  have ho := sequencerEdge_sequencerOnly hq
  rw [step_of_edge hev, clockEdge_of_running p (s := { s with events := rest }) hr,
    runningEdge_of_access hq ha rfl rfl rfl rfl rfl]
  simp only [ho.frame, ho.flen, ho.trail, ho.rst, ho.events, ho.cfg]

/-- A step whose access raises OVR and nothing else is the sequencer's edge with OVR. -/
theorem step_of_ovr {s q : State} {p : PortPins} {rest : List Event} (hr : s.rst = false)
    (hev : s.events = .edge p :: rest) (hq : sequencerEdge { s with events := rest } = .next q)
    (ha : portAccess p { s with events := rest } =
      .next { s with events := rest, ovr := true, rdata := none, err := false }) :
    step s = .next { q with ovr := true, rdata := none, err := false } := by
  have ho := sequencerEdge_sequencerOnly hq
  simpa only [ho.ipe, ho.ilc] using step_of_flags hr hev hq ha

/-- Settles O9: in a busy block any word written to CMD raises OVR, before it is decoded. -/
theorem commandWhileBusySetsOvrOnly : Obligations.CommandWhileBusySetsOvrOnly := by
  intro s w rest hs hr hb hev
  obtain ⟨q, hq⟩ := hs.sequencerEdge_events rest
  refine ⟨q, hq, step_of_ovr hr hev hq ?_⟩
  rw [portAccess_cmd, issueCommand_of_busy w (s := { s with events := rest }) hb]
  rfl

/-- Settles O29: each row of the address map is one case of `memWrite`, and all but a frame write to an idle block
change no more than the flags. -/
theorem writesTakeEffectByTheMap : Obligations.WritesTakeEffectByTheMap := by
  intro s a v rest hs hr halign hev
  obtain ⟨q, hq⟩ := hs.sequencerEdge_events rest
  have haccess := portAccess_writePins v { s with events := rest } halign
  refine ⟨q, hq, ?status, ?progress, ?frame, ?unmapped⟩
  case status =>
    rintro rfl
    exact step_of_flags hr hev hq (haccess.trans (by rw [memWrite_status]; rfl))
  case progress =>
    rintro rfl
    exact step_of_answer hr hev hq (haccess.trans (by rw [memWrite_progress]; rfl))
  case frame =>
    intro i hi ha
    rw [memWrite_frame v _ hi ha, mapNext_next] at haccess
    cases hb : s.busy with
    | true =>
      rw [writeFrameByte_of_busy i v (s := { s with events := rest }) hb] at haccess
      exact step_of_ovr hr hev hq haccess
    | false =>
      rw [writeFrameByte_of_idle v (s := { s with events := rest }) hb hi] at haccess
      have hidle := sequencerEdge_of_idle (s := { s with events := rest }) hb
      cases hidle.symm.trans hq
      exact (step_idle_edge hev hr hb).trans haccess
  case unmapped =>
    intro ha
    exact step_of_answer hr hev hq (haccess.trans (by rw [memWrite_unmapped v _ ha]; rfl))

/-! #### Edges without an access (10_state.md R30) -/

/-- A step whose edge selects nothing is the sequencer's edge, with no answer. -/
theorem step_unselected {s q : State} {p : PortPins} {rest : List Event} (hr : s.rst = false) (hsel : p.sel = false)
    (hev : s.events = .edge p :: rest) (hq : sequencerEdge { s with events := rest } = .next q) :
    step s = .next { q with rdata := none, err := false } :=
  step_of_answer hr hev hq (portAccess_unselected { s with events := rest } hsel)

/-- With no event left, a step is the sequencer's edge, with no answer (log 2). -/
theorem step_of_no_event_running {s q : State} (hr : s.rst = false) (hev : s.events = [])
    (hq : sequencerEdge s = .next q) : step s = .next { q with rdata := none, err := false } := by
  rw [step_of_no_event hev, clockEdge_of_running idlePins hr]
  exact runningEdge_of_answer hq (portAccess_unselected s rfl)

/-- Settles O46: such an edge's access changes only the port's answer, and the sequencer writes no more than its own
five elements. -/
theorem unselectedEdgeRunsTheSequencerOnly : Obligations.UnselectedEdgeRunsTheSequencerOnly := by
  intro s p rest hs hr hsel hev
  obtain ⟨q, hq⟩ := hs.sequencerEdge_events rest
  have ho := sequencerEdge_sequencerOnly hq
  exact ⟨q, hq, step_unselected hr hsel hev hq, ho.frame, ho.flen, ho.trail, ho.ipe, ho.ilc, ho.ovr, ho.events,
    ho.rst.trans hr, ho.cfg⟩

/-- Settles O34: the sequencer's edge leaves an idle block as it is, and LINE is the level of IDLE. -/
theorem idleBlockRests : Obligations.IdleBlockRests := by
  intro s hs hr hb
  refine ⟨?line, fun hev => step_of_no_event_running hr hev (sequencerEdge_of_idle hb), fun p rest hsel hev =>
    step_unselected hr hsel hev (sequencerEdge_of_idle (s := { s with events := rest }) hb)⟩
  case line =>
    rw [hs.line_level, (busy_eq_false_iff s).1 hb]
    rfl

/-- In a busy block a step with any access leaves all but the flags and the port's answer where the sequencer's edge
does. -/
theorem step_busy_edge {s q : State} (p : PortPins) {rest : List Event} (hr : s.rst = false) (hb : s.busy = true)
    (hev : s.events = .edge p :: rest) (hq : sequencerEdge { s with events := rest } = .next q) :
    ∃ a b c d e, step s = .next { q with ipe := a, ilc := b, ovr := c, rdata := d, err := e } := by
  obtain ⟨a, b, c, d, e, ha⟩ := portAccess_of_busy p (s := { s with events := rest }) hb
  exact ⟨a, b, c, d, e, step_of_flags hr hev hq ha⟩

/-- Settles O39: with either access the step leaves the elements of the transmission where the one sequencer's edge
does. -/
theorem accessesDoNotTouchATransmission : Obligations.AccessesDoNotTouchATransmission := by
  intro s p rest hs hr hb
  obtain ⟨q, hq⟩ := hs.sequencerEdge_events rest
  have ho := sequencerEdge_sequencerOnly hq
  obtain ⟨_, _, _, _, _, haccess⟩ :=
    step_busy_edge p (s := { s with events := .edge p :: rest }) hr hb rfl hq
  obtain ⟨_, _, _, _, _, hnone⟩ :=
    step_busy_edge ⟨false, false, 0, 0, 0⟩ (s := { s with events := .edge ⟨false, false, 0, 0, 0⟩ :: rest })
      hr hb rfl hq
  exact ⟨_, _, haccess, hnone, rfl, rfl, rfl, rfl, rfl, ho.frame, ho.flen, ho.trail, ho.frame, ho.flen, ho.trail⟩

/-! #### The flags are sticky (60_exceptions.md R96, R97) -/

/-- No flag that is set in `s` is clear in `t`. -/
structure FlagsKept (s t : State) : Prop where
  ipe : s.ipe = true → t.ipe = true
  ilc : s.ilc = true → t.ilc = true
  ovr : s.ovr = true → t.ovr = true

/-- A state with the same flags has lost none. -/
theorem FlagsKept.of_eq {s t : State} (h1 : t.ipe = s.ipe) (h2 : t.ilc = s.ilc) (h3 : t.ovr = s.ovr) : FlagsKept s t :=
  ⟨h1.trans, h2.trans, h3.trans⟩

theorem raise_flagsKept (e : ErrorCause) (s : State) : FlagsKept s (raise e s) := by
  cases e with
  | ipe => exact ⟨fun _ => rfl, id, id⟩
  | ilc => exact ⟨id, fun _ => rfl, id⟩
  | ovr => exact ⟨id, id, fun _ => rfl⟩
  | busErr => exact ⟨id, id, id⟩

/-- No command clears a flag: run from the flags it finds, it leaves them or raises them. -/
theorem exec_flagsKept {i : Instr} {s t : State} (h : exec i s = .next t) : FlagsKept s t := by
  obtain ⟨u, a, b, c, -, hsame, ha, hb, hc⟩ := flagsBlockNoCommand i s s.ipe s.ilc s.ovr
  cases h.symm.trans hsame
  exact ⟨ha, hb, hc⟩

theorem issueCommand_flagsKept {w : Word} {s t : State} (h : issueCommand w s = .next t) : FlagsKept s t := by
  unfold issueCommand at h
  split at h
  · cases h; exact raise_flagsKept .ovr s
  · split at h
    · cases h; exact raise_flagsKept .ilc s
    · exact exec_flagsKept h

theorem writeFrameByte_flagsKept (i : Nat) (v : Word) (s : State) : FlagsKept s (writeFrameByte i v s) := by
  unfold writeFrameByte
  split
  · exact raise_flagsKept .ovr s
  · exact .of_eq rfl rfl rfl

/-- A legal write keeps the flags, or it is one to STATUS. -/
theorem memWrite_flagsKept {a : BitVec 7} {v : Word} {s t : State} (h : memWrite a v s = .next t) :
    FlagsKept s t ∨ a = 0x04#7 ∧ t = clearFlags v s := by
  unfold memWrite at h
  split at h
  · exact .inl (issueCommand_flagsKept h)
  · next hreg => cases h; exact .inr ⟨eq_of_registerAt_status hreg, rfl⟩
  · cases h; exact .inl (.of_eq rfl rfl rfl)
  · cases h; exact .inl (writeFrameByte_flagsKept ..)
  · cases h; exact .inl (.of_eq rfl rfl rfl)

/-- An access keeps the flags, or it is a full-word write to STATUS. -/
theorem portAccess_flagsKept {p : PortPins} {s t : State} (h : portAccess p s = .next t) :
    FlagsKept s t ∨
      (p.sel = true ∧ p.write = true ∧ p.be = 0b1111#4 ∧ p.addr = 0x04#7) ∧
        t = respond none (clearFlags p.wdata s) := by
  cases hsel : p.sel with
  | false =>
    rw [portAccess_unselected s hsel] at h
    cases h
    exact .inl (.of_eq rfl rfl rfl)
  | true =>
    cases hlegal : accessLegal p with
    | false =>
      rw [portAccess_refused s hsel hlegal] at h
      cases h
      exact .inl (.of_eq rfl rfl rfl)
    | true =>
      cases hwrite : p.write with
      | false =>
        rw [portAccess_read s hsel hwrite hlegal] at h
        cases h
        exact .inl (.of_eq rfl rfl rfl)
      | true =>
        rw [portAccess_write s hsel hwrite hlegal] at h
        obtain ⟨u, hu, rfl⟩ := mapNext_eq_next h
        rcases memWrite_flagsKept hu with hkept | ⟨haddr, rfl⟩
        · exact .inl ⟨hkept.ipe, hkept.ilc, hkept.ovr⟩
        · exact .inr ⟨⟨rfl, rfl, ((accessLegal_eq_true_iff p).1 hlegal).1, haddr⟩, rfl⟩

/-- The flags after a running edge are those its access leaves. -/
theorem runningEdge_flags {p : PortPins} {s t : State} (h : runningEdge p s = .next t) :
    ∃ a, portAccess p s = .next a ∧ t.ipe = a.ipe ∧ t.ilc = a.ilc ∧ t.ovr = a.ovr := by
  unfold runningEdge at h
  split at h
  · obtain ⟨a, ha, rfl⟩ := mapNext_eq_next h
    refine ⟨a, ha, ?_⟩
    unfold mergeEdge
    split <;> exact ⟨rfl, rfl, rfl⟩
  · cases h
  · cases h

/-- A step out of reset keeps the flags, or clears what a full-word write to STATUS names, or is a rise of `rst`. -/
theorem step_flagsKept {s t : State} (hr : s.rst = false) (h : step s = .next t) :
    FlagsKept s t ∨ (∃ rest, s.events = .rst true :: rest) ∨
      ∃ p rest, s.events = .edge p :: rest ∧
        (p.sel = true ∧ p.write = true ∧ p.be = 0b1111#4 ∧ p.addr = 0x04#7) ∧
        t.ipe = (clearFlags p.wdata s).ipe ∧ t.ilc = (clearFlags p.wdata s).ilc ∧
          t.ovr = (clearFlags p.wdata s).ovr := by
  cases hev : s.events with
  | nil =>
    rw [step_of_no_event hev, clockEdge_of_running idlePins hr] at h
    obtain ⟨a, ha, h1, h2, h3⟩ := runningEdge_flags h
    rw [portAccess_unselected s rfl] at ha
    cases ha
    exact .inl (.of_eq h1 h2 h3)
  | cons e rest =>
    cases e with
    | rst level =>
      cases level with
      | true => exact .inr (.inl ⟨rest, rfl⟩)
      | false =>
        rw [step_of_rst hev] at h
        cases h
        exact .inl (.of_eq rfl rfl rfl)
    | edge p =>
      rw [step_of_edge hev, clockEdge_of_running p (s := { s with events := rest }) hr] at h
      obtain ⟨a, ha, h1, h2, h3⟩ := runningEdge_flags h
      rcases portAccess_flagsKept ha with hkept | ⟨hstatus, rfl⟩
      · exact .inl ⟨fun h => h1.trans (hkept.ipe h), fun h => h2.trans (hkept.ilc h), fun h => h3.trans (hkept.ovr h)⟩
      · exact .inr (.inr ⟨p, rest, rfl, hstatus, h1, h2, h3⟩)

/-- Settles O31: a step that is no rise of `rst` and does not keep the flags is a write to STATUS, which clears the
flags whose bits are 1. -/
theorem flagsAreSticky : Obligations.FlagsAreSticky := by
  intro s s' hr hstep hnorst kept
  rcases step_flagsKept hr hstep with hkept | ⟨rest, hrst⟩ | ⟨p, rest, hev, ⟨hsel, hwrite, hbe, haddr⟩, h1, h2, h3⟩
  · exact ⟨fun h _ => hkept.ipe h, fun h _ => hkept.ilc h, fun h _ => hkept.ovr h⟩
  · exact absurd hrst (hnorst rest)
  · refine ⟨fun h hk => ?ipe, fun h hk => ?ilc, fun h hk => ?ovr⟩
    case ipe => rw [h1, clearFlags_ipe, h, hk p rest hev hsel hwrite hbe haddr]; rfl
    case ilc => rw [h2, clearFlags_ilc, h, hk p rest hev hsel hwrite hbe haddr]; rfl
    case ovr => rw [h3, clearFlags_ovr, h, hk p rest hev hsel hwrite hbe haddr]; rfl

/-! #### `$` (30_encoding.md R60) -/

theorem core_step : Sys2Proof.core.step = step := rfl

/-- The pins of a full-word read are a legal access where the address is aligned. -/
theorem accessLegal_readPins (a : BitVec 7) : accessLegal (readPins a) = decide (a.toNat % 4 = 0) := by
  rw [Bool.eq_iff_iff, accessLegal_eq_true_iff, decide_eq_true_iff]
  exact and_iff_right rfl

/-- The read data after a legal block's edge with a read: the word, or 0 where the access is refused or `rst` is 1. -/
theorem step_readPins {s : State} {a : BitVec 7} {rest : List Event} (hs : s.Inv)
    (hev : s.events = .edge (readPins a) :: rest) :
    ∃ t, step s = .next t ∧
      t.rdata = some (if s.rst = false ∧ a.toNat % 4 = 0 then memRead a s else 0x00000000#32) := by
  cases hr : s.rst with
  | true =>
    rw [step_of_edge hev, clockEdge_of_reset _ (s := { s with events := rest }) hr]
    exact ⟨_, rfl, rfl⟩
  | false =>
    obtain ⟨q, hq⟩ := hs.sequencerEdge_events rest
    by_cases ha : a.toNat % 4 = 0
    · have hread := portAccess_read (p := readPins a) { s with events := rest } rfl rfl
        ((accessLegal_readPins a).trans (decide_eq_true ha))
      refine ⟨_, step_of_answer hr hev hq hread, ?_⟩
      rw [if_pos ⟨rfl, ha⟩]
      rfl
    · have hrefused := portAccess_refused (p := readPins a) { s with events := rest } rfl
        ((accessLegal_readPins a).trans (decide_eq_false ha))
      refine ⟨_, step_of_answer hr hev hq hrefused, ?_⟩
      have hno : ¬ (false = false ∧ a.toNat % 4 = 0) := fun h => ha h.2
      rw [if_neg hno]
      rfl

/-- The coming events play no part in what makes a state legal. -/
theorem State.Inv.withEvents {s : State} (hs : s.Inv) (es : List Event) : ({ s with events := es } : State).Inv where
  cfg_legal := hs.cfg_legal
  flen_pos := hs.flen_pos
  line_level := hs.line_level
  presc_lt := hs.presc_lt
  pidx_zero := hs.pidx_zero
  pidx_lt := hs.pidx_lt
  idle_zero := hs.idle_zero
  ucnt_range := hs.ucnt_range
  reset_held hr := congrArg (fun t : State => { t with events := es }) (hs.reset_held hr)

/-- A statement that is no `rd` leaves `$` alone, whatever the block answers. -/
theorem hostStep_dollar_of_not_rd (wait : Nat) (h : HostAgent) (s : State)
    (hrd : ∀ r, h.program[h.at_]? ≠ some (.rd r)) : (hostStep wait h s).1.dollar = h.dollar := by
  unfold hostStep
  split
  · rfl
  · rfl
  · rfl
  · exact hostBranch_dollar ..
  · exact hostBranch_dollar ..
  · next st _ _ _ _ hst =>
    split
    · rfl
    · dsimp only
      split
      · exact dollarAfter_of_not_rd _ _ fun r hr => hrd r (hr ▸ hst)
      · rfl

/-- A statement that makes one access at once: its step, with `$` named from what the step leaves. -/
theorem hostStep_rd {h : HostAgent} {s t : State} {r : RegName} {a : BitVec 7}
    (hst : h.program[h.at_]? = some (.rd r)) (ha : r.addr = some a)
    (ht : step { s with events := .edge (readPins a) :: s.events } = .next t) :
    hostStep 0 h s = ({ h with at_ := h.at_ + 1, dollar := t.rdata.getD h.dollar }, .next t) := by
  have hpins : stmtPins (.rd r) = some (readPins a) := by rw [stmtPins, ha]; rfl
  have hrun : Sys2Proof.core.run 1 { s with events := .edge (readPins a) :: s.events } = .next t := by
    simp only [Host.Core.run, core_step]
    rw [ht]
  simp only [hostStep, hst, hpins]
  simp [hrun]

/-- Settles O48: a host's `rd` is one step with the pins of a read, and no other statement names `$`. -/
theorem onlyRdNamesDollar : Obligations.OnlyRdNamesDollar := by
  refine ⟨hostStep_dollar_of_not_rd, fun h s r a hs hst ha => ?_⟩
  obtain ⟨t, ht, hdata⟩ := step_readPins (hs.withEvents (.edge (readPins a) :: s.events)) rfl
  refine ⟨t, ?_⟩
  rw [hostStep_rd hst ha ht, hdata]
  rfl

end Sys2Proof.Machine
end

/-! ### Ticks: TickEnd and Advance, and the edges of a tick (41_transmitter.md R73-R75) -/

section
namespace Sys2Proof.Machine

/-! #### TickEnd and Advance, case by case (41_transmitter.md R75) -/

theorem tickEnd_of_lt {s : State} (h : 1 < s.ucnt.toNat) : tickEnd s = .next { s with ucnt := s.ucnt - 1 } :=
  if_pos h

theorem tickEnd_of_last {s : State} (h : ¬ 1 < s.ucnt.toNat) : tickEnd s = advance s :=
  if_neg h

theorem advance_resetH {s : State} (h : s.phase = .resetH) :
    advance s = .next { s with phase := .resetL, line := false, ucnt := s.cfg.tResetL } := by
  simp only [advance, h]

theorem advance_resetL {s : State} (h : s.phase = .resetL) :
    advance s = .next { s with phase := .startH, line := true, ucnt := s.cfg.tStartH } := by
  simp only [advance, h]

theorem advance_startH {s : State} (h : s.phase = .startH) :
    advance s = .next { s with phase := .startL, line := false, ucnt := s.cfg.tStartL } := by
  simp only [advance, h]

theorem beginPulse_of_tx {s : State} {k : Nat} {b : Bool} (h : s.tx k = some b) :
    beginPulse k s =
      .next { s with phase := .bitH, line := true, pidx := BitVec.ofNat 8 k, ucnt := highTime s.cfg b } := by
  simp only [beginPulse, h]

theorem advance_startL {s : State} {b : Bool} (h : s.phase = .startL) (hb : s.tx 0 = some b) :
    advance s = .next { s with phase := .bitH, line := true, pidx := 0, ucnt := highTime s.cfg b } := by
  simp only [advance, h, beginPulse_of_tx hb]
  rfl

theorem advance_bitH {s : State} {b : Bool} (h : s.phase = .bitH) (hb : s.tx s.pidx.toNat = some b) :
    advance s = .next { s with phase := .bitL, line := false, ucnt := lowTime s.cfg b } := by
  simp only [advance, h, beginLow, hb]

theorem advance_bitL_last {s : State} (h : s.phase = .bitL) (hlast : s.pidx.toNat + 1 = s.np) :
    advance s = .next { s with phase := .idle, line := false, pidx := 0, ucnt := 0 } := by
  simp only [advance, h, if_pos hlast]

theorem advance_bitL {s : State} {b : Bool} (h : s.phase = .bitL) (hmore : s.pidx.toNat + 1 ≠ s.np)
    (hb : s.tx (s.pidx.toNat + 1) = some b) :
    advance s =
      .next { s with phase := .bitH, line := true, pidx := s.pidx + 1, ucnt := highTime s.cfg b } := by
  have hpidx : BitVec.ofNat 8 (s.pidx.toNat + 1) = s.pidx + 1 := by
    rw [BitVec.ofNat_add, BitVec.ofNat_toNat, BitVec.setWidth_eq]
    rfl
  simp only [advance, h, if_neg hmore, beginPulse_of_tx hb, hpidx]

/-- Settles O32: TickEnd counts down or is Advance, and a legal state has a bit for each pulse Advance asks for. -/
theorem tickEndAdvances : Obligations.TickEndAdvances := by
  intro s hs _
  refine ⟨tickEnd_of_lt, fun hlast => ?_⟩
  rw [tickEnd_of_last (by rw [hlast]; decide)]
  refine ⟨advance_resetH, advance_resetL, advance_startH, ?startL, ?bitH, advance_bitL_last, ?bitL⟩
  case startL =>
    intro h
    obtain ⟨b, hb⟩ := s.tx_eq_some s.np_pos
    exact ⟨b, hb, advance_startL h hb⟩
  case bitH =>
    intro h
    obtain ⟨b, hb⟩ := s.tx_eq_some hs.pidx_lt
    exact ⟨b, hb, advance_bitH h hb⟩
  case bitL =>
    intro h hmore
    have hlt := hs.pidx_lt
    obtain ⟨b, hb⟩ := s.tx_eq_some (k := s.pidx.toNat + 1) (by omega)
    exact ⟨b, hb, advance_bitL h hmore hb⟩

/-! #### The edges of a tick (41_transmitter.md R73, R74) -/

/-- The last edge of a tick runs TickEnd. -/
theorem sequencerEdge_of_tick {s : State} (hb : s.busy = true) (h : s.presc + 1 = clkDiv s.cfg) :
    sequencerEdge s = tickEnd { s with presc := 0 } := by
  simp only [sequencerEdge, hb, if_true, if_pos h]

/-- Every other edge of a tick counts PRESC up. -/
theorem sequencerEdge_of_presc {s : State} (hb : s.busy = true) (h : s.presc + 1 ≠ clkDiv s.cfg) :
    sequencerEdge s = .next { s with presc := s.presc + 1 } := by
  simp only [sequencerEdge, hb, if_true, if_neg h]

/-- `Advance()` does not look at the port's answer. -/
theorem advance_respond (d : Option Word) (s : State) : advance (respond d s) = mapNext (respond d) (advance s) := by
  have hpulse : ∀ k, beginPulse k (respond d s) = mapNext (respond d) (beginPulse k s) := by
    intro k
    have htx : (respond d s).tx k = s.tx k := rfl
    unfold beginPulse
    rw [htx]
    cases s.tx k <;> rfl
  have hlow : beginLow (respond d s) = mapNext (respond d) (beginLow s) := by
    have htx : (respond d s).tx (respond d s).pidx.toNat = s.tx s.pidx.toNat := rfl
    unfold beginLow
    rw [htx]
    cases s.tx s.pidx.toNat <;> rfl
  have hnp : (respond d s).np = s.np := rfl
  unfold advance
  rw [respond_phase]
  cases s.phase with
  | idle | resetH | resetL | startH => rfl
  | startL => exact hpulse 0
  | bitH => exact hlow
  | bitL =>
    dsimp only
    rw [respond_pidx, hnp]
    split
    · rfl
    · exact hpulse _

/-- `TickEnd()` does not look at the port's answer. -/
theorem tickEnd_respond (d : Option Word) (s : State) : tickEnd (respond d s) = mapNext (respond d) (tickEnd s) := by
  unfold tickEnd
  rw [respond_ucnt]
  split
  · rfl
  · exact advance_respond d s

theorem run_succ_of_step {s t : State} (k : Nat) (h : step s = .next t) :
    Sys2Proof.core.run (k + 1) s = Sys2Proof.core.run k t := by
  simp only [Host.Core.run, core_step, h]

theorem run_succ {s t : State} {k : Nat} (h : Sys2Proof.core.run k s = .next t) :
    Sys2Proof.core.run (k + 1) s = step t := by
  induction k generalizing s with
  | zero =>
    cases h
    simp only [Host.Core.run, core_step]
    cases step t <;> rfl
  | succ k ih =>
    cases hstep : step s with
    | next u =>
      rw [run_succ_of_step k hstep] at h
      rw [run_succ_of_step (k + 1) hstep, ih h]
    | fault r =>
      simp only [Host.Core.run, core_step, hstep] at h
      cases h
    | refused r =>
      simp only [Host.Core.run, core_step, hstep] at h
      cases h

/-- From any point of a tick, the edges left of it without an access do its TickEnd. -/
theorem run_rest_of_tick {n : Nat} {s t : State} (hr : s.rst = false) (hb : s.busy = true) (hev : s.events = [])
    (hn : s.presc + (n + 1) = clkDiv s.cfg) (ht : tickEnd { s with presc := 0 } = .next t) :
    Sys2Proof.core.run (n + 1) s = .next (respond none t) := by
  induction n generalizing s t with
  | zero =>
    have hedge := (sequencerEdge_of_tick hb hn).trans ht
    rw [run_succ_of_step 0 (step_of_no_event_running hr hev hedge)]
    rfl
  | succ n ih =>
    have hedge := sequencerEdge_of_presc hb (by omega)
    have ht' : tickEnd (respond none { s with presc := 0 }) = .next (respond none t) := by
      rw [tickEnd_respond, ht, mapNext_next]
    rw [run_succ_of_step (n + 1) (step_of_no_event_running hr hev hedge)]
    exact ih (s := respond none { s with presc := s.presc + 1 }) (t := respond none t) hr hb hev
      (by change s.presc + 1 + (n + 1) = clkDiv s.cfg; omega) ht'

/-- Settles O35: at PRESC = 0 all DIV edges of the tick are left. -/
theorem divEdgesMakeOneTick : Obligations.DivEdgesMakeOneTick := by
  intro s hs hr hb hpresc hev
  obtain ⟨t, ht⟩ := tickEnd_total hs.legal
  have hpos := clkDiv_pos hs.cfg_legal
  have hzero : ({ s with presc := 0 } : State) = s := by rw [← hpresc]
  obtain ⟨n, hn⟩ : ∃ n, clkDiv s.cfg = n + 1 := ⟨clkDiv s.cfg - 1, by omega⟩
  refine ⟨t, ht, ?_⟩
  rw [hn]
  exact run_rest_of_tick hr hb hev (by omega) (by rw [hzero, ht])

end Sys2Proof.Machine
end

/-! ### The waveform's segments (41_transmitter.md R70)

The segment at an index: the four of the prologue, then the HIGH and the LOW part of each pulse. -/

section
namespace Sys2Proof.Machine

/-- The prologue's four segments stand first. -/
theorem getElem?_waveSegments_prologue (c : Config) (f : Frame) (n : Nat) (trail : Bool) :
    (waveSegments c f n trail)[0]? = some ⟨.resetH, 0, c.tResetH.toNat⟩ ∧
    (waveSegments c f n trail)[1]? = some ⟨.resetL, 0, c.tResetL.toNat⟩ ∧
    (waveSegments c f n trail)[2]? = some ⟨.startH, 0, c.tStartH.toNat⟩ ∧
    (waveSegments c f n trail)[3]? = some ⟨.startL, 0, c.tStartL.toNat⟩ :=
  ⟨rfl, rfl, rfl, rfl⟩

/-- The segment after the HIGH part of pulse `k` is its LOW part. -/
theorem getElem?_waveSegments_low (c : Config) (f : Frame) {n k : Nat} {trail : Bool} (h : k < pulseCount n trail) :
    (waveSegments c f n trail)[5 + 2 * k]? =
      some ⟨.bitL, k, (lowTime c ((txBit f n trail k).getD false)).toNat⟩ := by
  obtain ⟨rest, hsplit⟩ := waveSegments_split c f h
  have hlen := length_prologue_pulseTrain c f n trail k
  have hplace : 5 + 2 * k - (4 + 2 * k) = 1 := by omega
  rw [hsplit, List.getElem?_append_right (by omega), hlen, hplace]
  rfl

@[simp] theorem length_waveSegments (c : Config) (f : Frame) (n : Nat) (trail : Bool) :
    (waveSegments c f n trail).length = 4 + 2 * pulseCount n trail := by
  rw [waveSegments_eq, length_prologue_pulseTrain]

/-- The segments at even places are HIGH, the others LOW. -/
theorem level_waveSegments {c : Config} {f : Frame} {n k : Nat} {trail : Bool} {g : Segment}
    (h : (waveSegments c f n trail)[k]? = some g) : g.phase.level = decide (k % 2 = 0) := by
  obtain ⟨h0, h1, h2, h3⟩ := getElem?_waveSegments_prologue c f n trail
  obtain ⟨hk, -⟩ := List.getElem?_eq_some_iff.1 h
  rw [length_waveSegments] at hk
  rcases Nat.lt_or_ge k 4 with h4 | h4
  · interval_cases k
    · cases h0.symm.trans h; rfl
    · cases h1.symm.trans h; rfl
    · cases h2.symm.trans h; rfl
    · cases h3.symm.trans h; rfl
  · rcases Nat.even_or_odd' (k - 4) with ⟨j, hj | hj⟩
    · obtain rfl : k = 4 + 2 * j := by omega
      cases (getElem?_waveSegments c f (by omega)).symm.trans h
      exact (decide_eq_true (by omega)).symm
    · obtain rfl : k = 5 + 2 * j := by omega
      cases (getElem?_waveSegments_low c f (by omega)).symm.trans h
      exact (decide_eq_false (by omega)).symm

/-- Settles O37: each segment's level is that of its place. -/
theorem waveAlternates : Obligations.WaveAlternates := by
  intro c f n trail
  refine ⟨?length, fun k hk => ?level⟩
  case length =>
    rw [wave, List.length_map, length_waveSegments, Nat.add_comm]
  case level =>
    have hk' : k < (waveSegments c f n trail).length := by simpa [wave] using hk
    simpa [wave] using level_waveSegments (List.getElem?_eq_getElem hk')

/-! #### Where in a list of segments a tick lies (41_transmitter.md R76) -/

theorem totalTicks_take_succ {gs : List Segment} {i : Nat} {g : Segment} (h : gs[i]? = some g) :
    totalTicks (gs.take (i + 1)) = totalTicks (gs.take i) + g.ticks := by
  rw [List.take_add_one, h, totalTicks_append]
  rfl

theorem totalTicks_take_le (gs : List Segment) (i : Nat) : totalTicks (gs.take i) ≤ totalTicks gs := by
  conv_rhs => rw [← List.take_append_drop i gs, totalTicks_append]
  exact Nat.le_add_right _ _

/-- A tick that has `left` ticks of a segment before it, counting itself, lies in that segment. -/
theorem segmentAt_of_getElem? {gs : List Segment} {i left : Nat} {g : Segment} (h : gs[i]? = some g) (h1 : 1 ≤ left)
    (hle : left ≤ g.ticks) : segmentAt gs (totalTicks (gs.take i) + (g.ticks - left)) = some (g, left) := by
  induction gs generalizing i with
  | nil => cases h
  | cons g' gs ih =>
    cases i with
    | zero =>
      cases h
      have hzero : totalTicks ((g :: gs).take 0) = 0 := rfl
      rw [hzero, Nat.zero_add, segmentAt, if_pos (by omega), Nat.sub_sub_self hle]
    | succ i =>
      have hcons : totalTicks ((g' :: gs).take (i + 1)) = g'.ticks + totalTicks (gs.take i) := rfl
      rw [hcons, segmentAt, if_neg (by omega), Nat.add_assoc, Nat.add_sub_cancel_left]
      exact ih h

end Sys2Proof.Machine
end

/-! ### The sequencer on the waveform (41_transmitter.md R70, R73, R75-R78)

A legal state's place in its transmission is a number: the clock edges done since its start, which PHASE, PIDX, UCNT
and PRESC fix. Each edge of a busy block adds one to it whatever the access, and the block is busy exactly as long as
the number is below the whole length. -/

section
namespace Sys2Proof.Machine

/-! #### The place of a state in its transmission -/

/-- The waveform of the frame a state holds. -/
def State.waveform (s : State) : List Segment :=
  waveSegments s.cfg s.frame s.flen.toNat s.trail

/-- The place in the waveform of the segment the sequencer is in; past the last one at rest. -/
def State.segmentIndex (s : State) : Nat :=
  match s.phase with
  | .resetH => 0
  | .resetL => 1
  | .startH => 2
  | .startL => 3
  | .bitH => 4 + 2 * s.pidx.toNat
  | .bitL => 5 + 2 * s.pidx.toNat
  | .idle => 4 + 2 * s.np

/-- The ticks of the waveform that are over. -/
def State.ticksDone (s : State) : Nat :=
  totalTicks (s.waveform.take s.segmentIndex) + (s.segmentTicks - s.ucnt.toNat)

/-- The clock edges of the transmission that are over. -/
def State.edgesDone (s : State) : Nat :=
  s.ticksDone * clkDiv s.cfg + s.presc

/-- The segment a busy legal state is in stands in the waveform, at the state's place. -/
theorem waveform_getElem? {s : State} (hs : s.Legal) (hp : s.phase ≠ .idle) :
    s.waveform[s.segmentIndex]? = some ⟨s.phase, s.pidx.toNat, s.segmentTicks⟩ := by
  obtain ⟨h0, h1, h2, h3⟩ := getElem?_waveSegments_prologue s.cfg s.frame s.flen.toNat s.trail
  have hzero : s.phase.inPulse = false → s.pidx.toNat = 0 := fun h => by rw [hs.pidx_zero h]; rfl
  unfold State.waveform State.segmentIndex State.segmentTicks
  cases hphase : s.phase with
  | idle => exact absurd hphase hp
  | resetH => rw [hzero (by rw [hphase]; rfl)]; exact h0
  | resetL => rw [hzero (by rw [hphase]; rfl)]; exact h1
  | startH => rw [hzero (by rw [hphase]; rfl)]; exact h2
  | startL => rw [hzero (by rw [hphase]; rfl)]; exact h3
  | bitH => exact getElem?_waveSegments s.cfg s.frame hs.pidx_lt
  | bitL => exact getElem?_waveSegments_low s.cfg s.frame hs.pidx_lt

/-- A busy legal state is before the end of its waveform. -/
theorem ticksDone_lt {s : State} (hs : s.Legal) (hp : s.phase ≠ .idle) : s.ticksDone < totalTicks s.waveform := by
  obtain ⟨h1, hle⟩ := hs.ucnt_range hp
  have htake := totalTicks_take_succ (waveform_getElem? hs hp)
  have hend := totalTicks_take_le s.waveform (s.segmentIndex + 1)
  simp only [State.ticksDone] at *
  omega

/-- A legal state at rest is at the end of its waveform. -/
theorem ticksDone_of_idle {s : State} (hp : s.phase = .idle) : s.ticksDone = totalTicks s.waveform := by
  have hindex : s.segmentIndex = s.waveform.length := by
    rw [State.waveform, length_waveSegments]
    simp only [State.segmentIndex, hp]
    rfl
  have hticks : s.segmentTicks = 0 := by simp only [State.segmentTicks, hp]
  rw [State.ticksDone, hindex, List.take_length, hticks, Nat.zero_sub, Nat.add_zero]

/-- A legal block is busy as long as edges of its transmission are left. -/
theorem busy_iff_edgesDone_lt {s : State} (hs : s.Legal) :
    s.busy = true ↔ s.edgesDone < totalTicks s.waveform * clkDiv s.cfg := by
  rw [busy_eq_true_iff]
  constructor
  · intro hp
    have hdone : (s.ticksDone + 1) * clkDiv s.cfg ≤ totalTicks s.waveform * clkDiv s.cfg :=
      Nat.mul_le_mul_right _ (ticksDone_lt hs hp)
    have hpresc := hs.presc_lt
    rw [Nat.succ_mul] at hdone
    rw [State.edgesDone]
    omega
  · intro hlt hp
    rw [State.edgesDone, ticksDone_of_idle hp] at hlt
    omega

/-! #### One tick and one edge further -/

/-- The HIGH part of pulse `k` has its place, with the whole of it to go. -/
theorem beginPulse_segmentIndex {s t : State} {k : Nat} (hk : k < s.np) (h : beginPulse k s = .next t) :
    t.segmentIndex = 4 + 2 * k ∧ t.ucnt.toNat = t.segmentTicks ∧ t.presc = s.presc := by
  obtain ⟨b, hb, rfl⟩ := beginPulse_eq_next h
  have hk8 : (BitVec.ofNat 8 k).toNat = k := by
    have := s.np_le
    rw [BitVec.toNat_ofNat]
    omega
  refine ⟨?_, ?_, rfl⟩
  · simp only [State.segmentIndex, hk8]
  · change (highTime s.cfg b).toNat = (highTime s.cfg ((s.tx (BitVec.ofNat 8 k).toNat).getD false)).toNat
    rw [hk8, hb, Option.getD_some]

/-- The LOW part of a pulse has the place after its HIGH part, with the whole of it to go. -/
theorem beginLow_segmentIndex {s t : State} (h : beginLow s = .next t) :
    t.segmentIndex = 5 + 2 * s.pidx.toNat ∧ t.ucnt.toNat = t.segmentTicks ∧ t.presc = s.presc := by
  obtain ⟨b, hb, rfl⟩ := beginLow_eq_next h
  refine ⟨rfl, ?_, rfl⟩
  change (lowTime s.cfg b).toNat = (lowTime s.cfg ((s.tx s.pidx.toNat).getD false)).toNat
  rw [hb, Option.getD_some]

/-- Advance moves to the next place of the waveform, with the whole of its segment to go. -/
theorem advance_segmentIndex {s t : State} (hs : s.Legal) (hp : s.phase ≠ .idle) (h : advance s = .next t) :
    t.segmentIndex = s.segmentIndex + 1 ∧ t.ucnt.toNat = t.segmentTicks ∧ t.presc = s.presc := by
  have hlt := hs.pidx_lt
  cases hphase : s.phase with
  | idle => exact absurd hphase hp
  | resetH =>
    have hplace : s.segmentIndex = 0 := by simp only [State.segmentIndex, hphase]
    cases (advance_resetH hphase).symm.trans h
    exact ⟨by rw [hplace]; rfl, rfl, rfl⟩
  | resetL =>
    have hplace : s.segmentIndex = 1 := by simp only [State.segmentIndex, hphase]
    cases (advance_resetL hphase).symm.trans h
    exact ⟨by rw [hplace]; rfl, rfl, rfl⟩
  | startH =>
    have hplace : s.segmentIndex = 2 := by simp only [State.segmentIndex, hphase]
    cases (advance_startH hphase).symm.trans h
    exact ⟨by rw [hplace]; rfl, rfl, rfl⟩
  | startL =>
    have hplace : s.segmentIndex = 3 := by simp only [State.segmentIndex, hphase]
    simp only [advance, hphase] at h
    rw [hplace]
    exact beginPulse_segmentIndex s.np_pos h
  | bitH =>
    have hplace : s.segmentIndex = 4 + 2 * s.pidx.toNat := by simp only [State.segmentIndex, hphase]
    simp only [advance, hphase] at h
    obtain ⟨hindex, hrest⟩ := beginLow_segmentIndex h
    exact ⟨by omega, hrest⟩
  | bitL =>
    have hplace : s.segmentIndex = 5 + 2 * s.pidx.toNat := by simp only [State.segmentIndex, hphase]
    by_cases hlast : s.pidx.toNat + 1 = s.np
    · cases (advance_bitL_last hphase hlast).symm.trans h
      refine ⟨?_, rfl, rfl⟩
      change 4 + 2 * s.np = s.segmentIndex + 1
      omega
    · simp only [advance, hphase, if_neg hlast] at h
      obtain ⟨hindex, hrest⟩ := beginPulse_segmentIndex (by omega) h
      exact ⟨by omega, hrest⟩

/-- What the sequencer leaves alone includes the waveform. -/
theorem SequencerOnly.waveform {s t : State} (h : SequencerOnly s t) : t.waveform = s.waveform := by
  rw [State.waveform, h.cfg, h.frame, h.flen, h.trail, State.waveform]

/-- TickEnd ends one tick of the waveform. -/
theorem tickEnd_ticksDone {s t : State} (hs : s.Legal) (hp : s.phase ≠ .idle) (h : tickEnd s = .next t) :
    t.ticksDone = s.ticksDone + 1 ∧ t.presc = s.presc := by
  obtain ⟨h1, hle⟩ := hs.ucnt_range hp
  have hwave := (tickEnd_sequencerOnly h).waveform
  by_cases hu : 1 < s.ucnt.toNat
  · cases (tickEnd_of_lt hu).symm.trans h
    refine ⟨?_, rfl⟩
    have hsub : (s.ucnt - 1).toNat = s.ucnt.toNat - 1 := BitVec.toNat_sub_of_le (by rw [BitVec.le_def]; exact h1)
    change totalTicks (s.waveform.take s.segmentIndex) + (s.segmentTicks - (s.ucnt - 1).toNat) = s.ticksDone + 1
    rw [State.ticksDone, hsub]
    omega
  · rw [tickEnd_of_last hu] at h
    obtain ⟨hindex, hfull, hpresc⟩ := advance_segmentIndex hs hp h
    refine ⟨?_, hpresc⟩
    rw [State.ticksDone, hwave, hindex, totalTicks_take_succ (waveform_getElem? hs hp), hfull, State.ticksDone]
    dsimp only
    omega

/-- An edge of a busy block is one edge of its transmission. -/
theorem sequencerEdge_edgesDone {s q : State} (hs : s.Legal) (hb : s.busy = true) (h : sequencerEdge s = .next q) :
    q.edgesDone = s.edgesDone + 1 := by
  have hp := (busy_eq_true_iff s).1 hb
  have hcfg := (sequencerEdge_sequencerOnly h).cfg
  by_cases hlast : s.presc + 1 = clkDiv s.cfg
  · rw [sequencerEdge_of_tick hb hlast] at h
    have hzero : ({ s with presc := 0 } : State).Legal :=
      ⟨hs.cfg_legal, hs.flen_pos, hs.line_level, clkDiv_pos hs.cfg_legal, hs.pidx_zero, hs.pidx_lt,
        fun h' => absurd h' hp, hs.ucnt_range⟩
    obtain ⟨hticks, hpresc⟩ := tickEnd_ticksDone hzero hp h
    calc q.edgesDone = q.ticksDone * clkDiv s.cfg + q.presc := by rw [State.edgesDone, hcfg]
      _ = (s.ticksDone + 1) * clkDiv s.cfg + 0 := by rw [hticks, hpresc]; rfl
      _ = s.edgesDone + 1 := by rw [State.edgesDone, Nat.succ_mul]; omega
  · cases (sequencerEdge_of_presc hb hlast).symm.trans h
    rfl

/-! #### Runs whose events are clock edges -/

theorem onlyEdges_drop {es : List Event} (h : onlyEdges es) (k : Nat) : onlyEdges (es.drop k) :=
  fun e he => h e (List.mem_of_mem_drop he)

/-- Where only clock edges are to come, a step out of reset is a running edge, with the pins of the oldest event or,
with none left, without an access (log 2). -/
theorem step_of_onlyEdges {s : State} (hr : s.rst = false) (h : onlyEdges s.events) :
    ∃ p, (p.sel = false ∨ s.events.head? = some (.edge p)) ∧
      step s = runningEdge p { s with events := s.events.tail } := by
  cases hev : s.events with
  | nil =>
    have hs : ({ s with events := [] } : State) = s := by rw [← hev]
    refine ⟨idlePins, .inl rfl, ?_⟩
    rw [step_of_no_event hev, clockEdge_of_running idlePins hr, List.tail_nil, hs]
  | cons e rest =>
    obtain ⟨p, rfl⟩ := h e (by rw [hev]; exact List.mem_cons_self)
    refine ⟨p, .inr rfl, ?_⟩
    rw [step_of_edge hev, clockEdge_of_running p (s := { s with events := rest }) hr]
    rfl

/-- `t`, reached from `s` in `k` edges, has done `k` edges of the transmission of `s`. -/
structure OnWave (s : State) (k : Nat) (t : State) : Prop where
  legal : t.Legal
  rst : t.rst = false
  events : t.events = s.events.drop k
  cfg : t.cfg = s.cfg
  frame : t.frame = s.frame
  flen : t.flen = s.flen
  trail : t.trail = s.trail
  edgesDone : t.edgesDone = k

theorem OnWave.waveform {s t : State} {k : Nat} (h : OnWave s k t) : t.waveform = s.waveform := by
  rw [State.waveform, h.cfg, h.frame, h.flen, h.trail, State.waveform]

theorem OnWave.busy_iff {s t : State} {k : Nat} (h : OnWave s k t) :
    t.busy = true ↔ k < totalTicks s.waveform * clkDiv s.cfg := by
  rw [busy_iff_edgesDone_lt h.legal, h.edgesDone, h.waveform, h.cfg]

/-- Whatever the host does at it, an edge of a busy block goes one edge further on the waveform (41_transmitter.md
R77). -/
theorem OnWave.step {s t : State} {k : Nat} (h : OnWave s k t) (hes : onlyEdges s.events) (hb : t.busy = true) :
    ∃ u, step t = .next u ∧ OnWave s (k + 1) u := by
  have hes' : onlyEdges t.events := by rw [h.events]; exact onlyEdges_drop hes k
  obtain ⟨p, -, hstep⟩ := step_of_onlyEdges h.rst hes'
  have hlegal : ({ t with events := t.events.tail } : State).Legal :=
    h.legal.congr rfl rfl rfl rfl rfl rfl rfl rfl rfl
  obtain ⟨q, hq, hqlegal⟩ := sequencerEdge_legal hlegal
  have ho := sequencerEdge_sequencerOnly hq
  have hdone : q.edgesDone = t.edgesDone + 1 :=
    sequencerEdge_edgesDone (s := { t with events := t.events.tail }) hlegal hb hq
  obtain ⟨a, b, c, d, e, hedge⟩ := runningEdge_of_busy p hq hb
  refine ⟨_, hstep.trans hedge, ?_⟩
  exact {
    legal := hqlegal.congr rfl rfl rfl rfl rfl rfl rfl rfl rfl
    rst := ho.rst.trans h.rst
    events := ho.events.trans (by rw [h.events, List.tail_drop])
    cfg := ho.cfg.trans h.cfg
    frame := ho.frame.trans h.frame
    flen := ho.flen.trans h.flen
    trail := ho.trail.trans h.trail
    edgesDone := hdone.trans (by rw [h.edgesDone]) }

/-- Up to the whole length, a run of `k` edges has done `k` edges of the transmission. -/
theorem run_onWave {s : State} (h : OnWave s 0 s) (hes : onlyEdges s.events) {k : Nat}
    (hk : k ≤ totalTicks s.waveform * clkDiv s.cfg) : ∃ t, Sys2Proof.core.run k s = .next t ∧ OnWave s k t := by
  induction k with
  | zero => exact ⟨s, rfl, h⟩
  | succ k ih =>
    obtain ⟨t, ht, hwave⟩ := ih (by omega)
    obtain ⟨u, hu, hwave'⟩ := hwave.step hes (hwave.busy_iff.2 hk)
    exact ⟨u, (run_succ ht).trans hu, hwave'⟩

/-- A transmission just begun has done no edge. -/
theorem onWave_zero {s : State} (hs : s.Inv) (hr : s.rst = false) (hp : s.phase = .resetH)
    (hu : s.ucnt = s.cfg.tResetH) (hpresc : s.presc = 0) : OnWave s 0 s where
  legal := hs.legal
  rst := hr
  events := rfl
  cfg := rfl
  frame := rfl
  flen := rfl
  trail := rfl
  edgesDone := by
    have hindex : s.segmentIndex = 0 := by simp only [State.segmentIndex, hp]
    have hticks : s.segmentTicks = s.cfg.tResetH.toNat := by simp only [State.segmentTicks, hp]
    have hdone : s.ticksDone = 0 := by
      rw [State.ticksDone, hindex, hticks, hu, Nat.sub_self]
      rfl
    rw [State.edgesDone, hdone, hpresc, Nat.zero_mul]

/-- The place after `k` edges, from the numbers of the segments (41_transmitter.md R76). -/
theorem OnWave.segmentAt {s t : State} {k : Nat} (h : OnWave s k t) (hb : t.busy = true) :
    segmentAt s.waveform (k / clkDiv s.cfg) = some (⟨t.phase, t.pidx.toNat, t.segmentTicks⟩, t.ucnt.toNat) ∧
      t.presc = k % clkDiv s.cfg := by
  have hp := (busy_eq_true_iff t).1 hb
  obtain ⟨h1, hle⟩ := h.legal.ucnt_range hp
  have hpos := clkDiv_pos h.legal.cfg_legal
  have hpresc := h.legal.presc_lt
  have hk : k = clkDiv t.cfg * t.ticksDone + t.presc := by
    rw [← h.edgesDone, State.edgesDone, Nat.mul_comm]
  rw [← h.waveform, ← h.cfg]
  have hdiv : k / clkDiv t.cfg = t.ticksDone := by
    rw [hk, Nat.mul_add_div hpos, Nat.div_eq_of_lt hpresc, Nat.add_zero]
  have hmod : k % clkDiv t.cfg = t.presc := by
    rw [hk, Nat.mul_add_mod, Nat.mod_eq_of_lt hpresc]
  rw [hdiv, hmod]
  exact ⟨segmentAt_of_getElem? (waveform_getElem? h.legal hp) h1 hle, rfl⟩

/-! #### After the transmission -/

/-- A command that an idle block ends busy from is an XMIT, or a ZONE or PROG in range. -/
theorem exec_idle_or_starting {i : Instr} {s t : State} (hb : s.busy = false) (h : exec i s = .next t) :
    t.busy = false ∨ (∃ trail, i = .xmit trail) ∨ (∃ z m, i = .zone z m ∧ 1 ≤ z ∧ z ≤ 48 ∧ m ≤ 240) ∨
      ∃ p, i = .prog p ∧ 1 ≤ p ∧ p ≤ 4 := by
  cases i with
  | nop =>
    simp only [exec, execNop, whenIdle_of_idle _ hb] at h
    cases h; exact .inl hb
  | wrfield pos width value =>
    simp only [exec, execWrfield, whenIdle_of_idle _ hb, checked] at h
    split at h <;> (cases h; exact .inl hb)
  | ldtpl tpl =>
    simp only [exec, execLdtpl, whenIdle_of_idle _ hb] at h
    cases h; exact .inl hb
  | clear len =>
    simp only [exec, execClear, whenIdle_of_idle _ hb, checked] at h
    split at h <;> (cases h; exact .inl hb)
  | xmit trail => exact .inr (.inl ⟨trail, rfl⟩)
  | zone z m =>
    by_cases hlegal : zoneLegal z m = true
    · exact .inr (.inr (.inl ⟨z, m, rfl, (zoneLegal_eq_true_iff z m).1 hlegal⟩))
    · simp only [exec, execZone, whenIdle_of_idle _ hb, checked_of_illegal _ (Bool.eq_false_iff.2 hlegal)] at h
      cases h; exact .inl hb
  | prog p =>
    by_cases hlegal : progLegal p = true
    · exact .inr (.inr (.inr ⟨p, rfl, (progLegal_eq_true_iff p).1 hlegal⟩))
    · simp only [exec, execProg, whenIdle_of_idle _ hb, checked_of_illegal _ (Bool.eq_false_iff.2 hlegal)] at h
      cases h; exact .inl hb

/-- A legal write leaves an idle block idle, or it is one to CMD of a command the block ends busy from. -/
theorem memWrite_idle_or_command {a : BitVec 7} {v : Word} {s t : State} (hb : s.busy = false)
    (h : memWrite a v s = .next t) :
    t.busy = false ∨ a = 0x00#7 ∧ ∃ i, decode v = .ok i ∧ exec i s = .next t := by
  unfold memWrite at h
  split at h
  · next hreg =>
    cases hv : decode v with
    | ok i =>
      rw [issueCommand_of_ok hb hv] at h
      exact .inr ⟨eq_of_registerAt_cmd hreg, i, rfl, h⟩
    | error e =>
      rw [issueCommand_of_error hb hv] at h
      cases h; exact .inl hb
  · cases h; exact .inl hb
  · cases h; exact .inl hb
  · cases h
    unfold writeFrameByte
    split <;> exact .inl hb
  · cases h; exact .inl hb

/-- An access leaves an idle block idle, or it starts a transmission. -/
theorem portAccess_idle_or_starts {p : PortPins} {s t : State} (hb : s.busy = false) (h : portAccess p s = .next t) :
    t.busy = false ∨ startsTransmission p := by
  cases hsel : p.sel with
  | false =>
    rw [portAccess_unselected s hsel] at h
    cases h; exact .inl hb
  | true =>
    cases hlegal : accessLegal p with
    | false =>
      rw [portAccess_refused s hsel hlegal] at h
      cases h; exact .inl hb
    | true =>
      cases hwrite : p.write with
      | false =>
        rw [portAccess_read s hsel hwrite hlegal] at h
        cases h; exact .inl hb
      | true =>
        rw [portAccess_write s hsel hwrite hlegal] at h
        obtain ⟨u, hu, rfl⟩ := mapNext_eq_next h
        rcases memWrite_idle_or_command hb hu with hidle | ⟨haddr, i, hi, hexec⟩
        · exact .inl hidle
        · have hbe := ((accessLegal_eq_true_iff p).1 hlegal).1
          rcases exec_idle_or_starting hb hexec with hidle | ⟨trail, rfl⟩ | ⟨z, m, rfl, hrange⟩ | ⟨q, rfl, hrange⟩
          · exact .inl hidle
          · exact .inr ⟨hsel, hwrite, hbe, haddr, .inl ⟨trail, hi⟩⟩
          · exact .inr ⟨hsel, hwrite, hbe, haddr, .inr (.inl ⟨z, m, hi, hrange⟩)⟩
          · exact .inr ⟨hsel, hwrite, hbe, haddr, .inr (.inr ⟨q, hi, hrange⟩)⟩

/-- An access that starts a transmission stands among the events at some place from `n` and before `k`. -/
def StartsBetween (es : List Event) (n k : Nat) : Prop :=
  ∃ j p, n ≤ j ∧ j < k ∧ es[j]? = some (.edge p) ∧ startsTransmission p

theorem StartsBetween.succ {es : List Event} {n k : Nat} (h : StartsBetween es n k) : StartsBetween es n (k + 1) := by
  obtain ⟨j, p, hn, hk, hrest⟩ := h
  exact ⟨j, p, hn, Nat.lt_succ_of_lt hk, hrest⟩

theorem StartsBetween.exists_mem {es : List Event} {n k : Nat} (h : StartsBetween es n k) :
    ∃ p, .edge p ∈ (es.take k).drop n ∧ startsTransmission p := by
  obtain ⟨j, p, hn, hk, hj, hp⟩ := h
  refine ⟨p, List.mem_of_getElem? (i := j - n) ?_, hp⟩
  rw [List.getElem?_drop, Nat.add_sub_cancel' hn, List.getElem?_take_of_lt hk, hj]

/-- `t`, reached from `s` in `k` edges of which the first `n` are over, is idle, or has met an access since that starts
a transmission. -/
structure RestsSince (s : State) (n k : Nat) (t : State) : Prop where
  legal : t.Legal
  rst : t.rst = false
  events : t.events = s.events.drop k
  idle : t.busy = false ∨ StartsBetween s.events n k

theorem RestsSince.step {s t : State} {n k : Nat} (h : RestsSince s n k t) (hes : onlyEdges s.events) (hn : n ≤ k) :
    ∃ u, step t = .next u ∧ RestsSince s n (k + 1) u := by
  have hes' : onlyEdges t.events := by rw [h.events]; exact onlyEdges_drop hes k
  obtain ⟨p, hp, hstep⟩ := step_of_onlyEdges h.rst hes'
  obtain ⟨u, hu, hlegal, hrst, hevents, -⟩ := runningEdge_legal p (s := { t with events := t.events.tail })
    (h.legal.congr rfl rfl rfl rfl rfl rfl rfl rfl rfl)
  refine ⟨u, hstep.trans hu, hlegal, hrst.trans h.rst, hevents.trans (by rw [h.events, List.tail_drop]), ?_⟩
  rcases h.idle with hb | hstarts
  case inr => exact .inr hstarts.succ
  rw [runningEdge_of_idle p (s := { t with events := t.events.tail }) hb] at hu
  rcases portAccess_idle_or_starts (s := { t with events := t.events.tail }) hb hu with hidle | hstart
  · exact .inl hidle
  · have hsel : p.sel ≠ false := by rw [hstart.1]; decide
    have hhead := hp.resolve_left hsel
    rw [h.events, List.head?_drop] at hhead
    exact .inr ⟨k, p, hn, Nat.lt_succ_self k, hhead, hstart⟩

/-- After the whole length the block rests until an access starts another transmission (41_transmitter.md R78). -/
theorem run_restsSince {s : State} (h : OnWave s 0 s) (hes : onlyEdges s.events) {k : Nat}
    (hk : totalTicks s.waveform * clkDiv s.cfg ≤ k) :
    ∃ t, Sys2Proof.core.run k s = .next t ∧ RestsSince s (totalTicks s.waveform * clkDiv s.cfg) k t := by
  induction k, hk using Nat.le_induction with
  | base =>
    obtain ⟨t, ht, hwave⟩ := run_onWave h hes le_rfl
    have hidle : t.busy = false := Bool.eq_false_iff.2 fun hb => Nat.lt_irrefl _ (hwave.busy_iff.1 hb)
    exact ⟨t, ht, hwave.legal, hwave.rst, hwave.events, .inl hidle⟩
  | succ k hk ih =>
    obtain ⟨t, ht, hrests⟩ := ih
    obtain ⟨u, hu, hrests'⟩ := hrests.step hes hk
    exact ⟨u, (run_succ ht).trans hu, hrests'⟩

/-- A legal block at rest drives LOW and holds PIDX and UCNT at 0 (10_state.md R16-R18). -/
theorem State.Legal.at_rest {s : State} (hs : s.Legal) (hb : s.busy = false) :
    s.phase = .idle ∧ s.line = false ∧ s.pidx = 0 ∧ s.ucnt = 0 := by
  have hp := (busy_eq_false_iff s).1 hb
  exact ⟨hp, by rw [hs.line_level, hp]; rfl, hs.pidx_zero (by rw [hp]; rfl), (hs.idle_zero hp).1⟩

/-- Settles O36: each edge of the busy block is one edge of the waveform, and at rest the block stays there until an
access starts a transmission. -/
theorem sequencerDrivesExactlyTheWave : Obligations.SequencerDrivesExactlyTheWave := by
  intro s hs hr hp hu hpresc hes
  have hstart := onWave_zero hs hr hp hu hpresc
  change (∀ k, k < totalTicks s.waveform * clkDiv s.cfg → _) ∧ _
  refine ⟨?during, ?atEnd, ?after⟩
  case during =>
    intro k hk
    obtain ⟨t, ht, hwave⟩ := run_onWave hstart hes hk.le
    have hb := hwave.busy_iff.2 hk
    obtain ⟨hat, hmod⟩ := hwave.segmentAt hb
    exact ⟨t, _, _, ht, hat, rfl, rfl, rfl, hmod, hwave.legal.line_level, hb⟩
  case atEnd =>
    obtain ⟨t, ht, hwave⟩ := run_onWave hstart hes le_rfl
    have hb : t.busy = false := Bool.eq_false_iff.2 fun hb => Nat.lt_irrefl _ (hwave.busy_iff.1 hb)
    obtain ⟨hphase, hline, hpidx, hucnt⟩ := hwave.legal.at_rest hb
    exact ⟨t, ht, hphase, hb, hline, hpidx, hucnt, hwave.frame, hwave.flen, hwave.trail⟩
  case after =>
    intro k hk
    obtain ⟨t, ht, hrests⟩ := run_restsSince hstart hes hk
    refine ⟨t, ht, hrests.idle.imp (fun hb => ?_) StartsBetween.exists_mem⟩
    obtain ⟨-, hline, -⟩ := hrests.legal.at_rest hb
    exact ⟨hline, hb⟩

end Sys2Proof.Machine
end
